-- ==== Sys2Proof/Word.lean ====
section
/-! DEFINITION. The words of the unit: the element (a byte) and the command word. -/

namespace Sys2Proof

/-- An element of a bit array: 8 bits, unsigned (00 R7: `ELEMBITS = 8`, no other value is admitted). -/
abbrev Byte := BitVec 8

/-- A command word `CW`: 16 bits, positions 15 down to 0 (30 R50). -/
abbrev CommandWord := BitVec 16

end Sys2Proof
end

