-- ==== Sys2Proof/Config.lean ====
section
/-! DEFINITION. What an instance of the unit fixes (00 R7 to R9, 10 R21), and the values the spec leaves free. -/

namespace Sys2Proof

/-- The two data spaces of the unit, operand buffer `A` and operand buffer `B` (20 R33). -/
inductive Space where
  | A
  | B
deriving DecidableEq, Repr

/-- The parameter of an instance (00 R8): `len` is `LEN`, the number of elements in each buffer.
No command and no reset changes it (10 R21). -/
structure Config where
  len : Nat
deriving DecidableEq, Repr

/-- `1 <= LEN <= 31` (00 R8). -/
def Config.wf (c : Config) : Bool := decide (1 ≤ c.len) && decide (c.len ≤ 31)

/-- `TB`, the bits of one buffer: `LEN * ELEMBITS` with `ELEMBITS = 8` (00 R7, R9). -/
def Config.tb (c : Config) : Nat := c.len * 8

/-- The IPv4 instance, `LEN = 4` (00 R8). -/
def Config.ipv4 : Config := ⟨4⟩

/-- The IPv6 instance, `LEN = 16` (00 R8). -/
def Config.ipv6 : Config := ⟨16⟩

/-- FREE VALUE: what element `i` of a buffer holds after reset number `k` (10 R22: "one free value per element
and per register, fixed at reset, under no law"). Log entry 2. -/
opaque Config.freeElem (k : Nat) (sp : Space) (i : Nat) : Byte

/-- FREE VALUE: what `R` holds after reset number `k` (10 R22). Log entry 2. -/
opaque Config.freeR (k : Nat) : Byte

/-- FREE VALUE: what `T` holds after reset number `k` (10 R22). Log entry 2. -/
opaque Config.freeT (k : Nat) : Bool

/-- FREE VALUE: what a buffer answers at an index it does not list. In a well-formed state every index
`0 .. LEN-1` is listed, and an access outside that range is refused or faults first. Log entry 3. -/
opaque Config.unlistedElem (i : Nat) : Byte

end Sys2Proof
end

