-- ==== Sys2Proof/Syntax.lean ====
section
/-! DEFINITION. The thirteen commands (30 R53), one constructor per row of the opcode table. -/

namespace Sys2Proof

/-- A command of the unit. `n` is the operand field `N`, a bit index or a bit count used as a natural number
(30 R54); `bit` is the operand field `BIT`. The buffer arguments are not in the command: `slice` and `a` are
always buffer `A`, `other` and `b` always buffer `B` (30 R51). -/
inductive Instr where
  /-- OP 0, `mask(ndx)` (40 R71). -/
  | mask (n : Nat)
  /-- OP 1, `get(slice, ndx)` (40 R72). -/
  | get (n : Nat)
  /-- OP 2, `set(slice, ndx, bit)` (40 R73). -/
  | set (n : Nat) (bit : Bool)
  /-- OP 3, `on(slice, ndx)` (40 R74). -/
  | on (n : Nat)
  /-- OP 4, `off(slice, ndx)` (40 R75). -/
  | off (n : Nat)
  /-- OP 5, `flip(slice, ndx)` (40 R76). -/
  | flip (n : Nat)
  /-- OP 6, `inc(slice, prefix)` (41 R81). -/
  | inc (n : Nat)
  /-- OP 7, `shared_prefix_len(a, b, max_len)` (42 R90). -/
  | sharedPrefixLen (n : Nat)
  /-- OP 8, `zeroesfrom(slice, ndx)` (43 R102). -/
  | zeroesfrom (n : Nat)
  /-- OP 9, `onesfrom(slice, ndx)` (43 R103). -/
  | onesfrom (n : Nat)
  /-- OP 10, `is_zeroesfrom(slice, ndx)` (43 R104). -/
  | isZeroesfrom (n : Nat)
  /-- OP 11, `is_onesfrom(slice, ndx)` (43 R105). -/
  | isOnesfrom (n : Nat)
  /-- OP 12, `contains(slice, prefix, other)` (44 R110). -/
  | contains (n : Nat)
deriving DecidableEq, Repr

/-- The operand `N` of a command. -/
def Instr.n : Instr → Nat
  | .mask n => n
  | .get n => n
  | .set n _ => n
  | .on n => n
  | .off n => n
  | .flip n => n
  | .inc n => n
  | .sharedPrefixLen n => n
  | .zeroesfrom n => n
  | .onesfrom n => n
  | .isZeroesfrom n => n
  | .isOnesfrom n => n
  | .contains n => n

/-- The operation number `OP` of a command (30 R53). -/
def Instr.opNumber : Instr → Nat
  | .mask _ => 0
  | .get _ => 1
  | .set _ _ => 2
  | .on _ => 3
  | .off _ => 4
  | .flip _ => 5
  | .inc _ => 6
  | .sharedPrefixLen _ => 7
  | .zeroesfrom _ => 8
  | .onesfrom _ => 9
  | .isZeroesfrom _ => 10
  | .isOnesfrom _ => 11
  | .contains _ => 12

/-- The field `BIT` of a command: the operand of `set`, and 0 in every other command (30 R51). -/
def Instr.bitField : Instr → Bool
  | .set _ bit => bit
  | .mask _ => false
  | .get _ => false
  | .on _ => false
  | .off _ => false
  | .flip _ => false
  | .inc _ => false
  | .sharedPrefixLen _ => false
  | .zeroesfrom _ => false
  | .onesfrom _ => false
  | .isZeroesfrom _ => false
  | .isOnesfrom _ => false
  | .contains _ => false

end Sys2Proof
end

