-- ==== Sys2Proof/WellFormed.lean ====
section
/-! DEFINITION. Which commands have a word: the operand must fit its field (30 R51, R54, R59). -/

namespace Sys2Proof

/-- `N` is a number 0 to 255 (30 R51). Whether `N` is in the legal range of the command and of `LEN` is NOT part of
this check: that is checked when the command executes (30 R54). -/
def Instr.wellFormed (i : Instr) : Bool := decide (i.n < 256)

end Sys2Proof
end

