-- ==== Sys2Proof/Decode.lean ====
section
/-! DEFINITION. The decoder, total on all 65536 words and rejecting by name (30 R55, R56), and the encoder
(30 R51, R53, R59). -/

namespace Sys2Proof

/-- Why a word matches no row of the opcode map (30 R56). -/
inductive IllegalWord where
  /-- `CW[15:12]` is 13, 14 or 15. -/
  | reservedOperation
  /-- `CW[11:9]` is not `000`. -/
  | zeroFieldNotZero
  /-- `CW[8] = 1` and the operation is not `set`. -/
  | bitOutsideSet
deriving DecidableEq, Repr

/-- `OP = CW[15:12]` (30 R51). -/
def opField (w : CommandWord) : Nat := (w.extractLsb' 12 4).toNat

/-- `ZERO = CW[11:9]` (30 R51). -/
def zeroField (w : CommandWord) : BitVec 3 := w.extractLsb' 9 3

/-- `BIT = CW[8]`, a boolean (30 R51, R54). -/
def bitOperand (w : CommandWord) : Bool := w.getLsbD 8

/-- `N = CW[7:0]`, an unsigned number, zero-extended and unscaled (30 R54). -/
def nOperand (w : CommandWord) : Nat := (w.extractLsb' 0 8).toNat

/-- The operation map of 30 R53: which command an operation number names; `none` for the reserved numbers. -/
def operation (op n : Nat) (bit : Bool) : Option Instr :=
  match op with
  | 0 => some (.mask n)
  | 1 => some (.get n)
  | 2 => some (.set n bit)
  | 3 => some (.on n)
  | 4 => some (.off n)
  | 5 => some (.flip n)
  | 6 => some (.inc n)
  | 7 => some (.sharedPrefixLen n)
  | 8 => some (.zeroesfrom n)
  | 9 => some (.onesfrom n)
  | 10 => some (.isZeroesfrom n)
  | 11 => some (.isOnesfrom n)
  | 12 => some (.contains n)
  | _ => none

/-- Decode a command word (30 R55): a reserved operation number, a nonzero `ZERO` field, or `BIT = 1` outside `set`
is illegal; every other word selects exactly one command. -/
def decode (w : CommandWord) : Except IllegalWord Instr :=
  match operation (opField w) (nOperand w) (bitOperand w) with
  | none => .error .reservedOperation
  | some i =>
    if zeroField w ≠ 0#3 then .error .zeroFieldNotZero
    else if opField w ≠ 2 ∧ bitOperand w = true then .error .bitOutsideSet
    else .ok i

/-- Encode a command: `{OP, 000, BIT, N}` (30 R51), which is `(OP << 12) | (BIT << 8) | N` (30 R59). -/
def encode (i : Instr) : CommandWord :=
  BitVec.ofNat 4 i.opNumber ++ 0#3 ++ BitVec.ofBool i.bitField ++ BitVec.ofNat 8 i.n

/-- The instruction the decoder reads from the word whose bits are `w`, numbered as the opcode table numbers them.
A command is one 16-bit word (30 R50): bits above position 15 would be no part of any command, and a number that has
one is no word (log entry 14). -/
def decodeTableWord (nbits w : Nat) : Option Instr :=
  let v := w % 2 ^ nbits
  if v < 65536 then
    match decode (BitVec.ofNat 16 v) with
    | .ok i => some i
    | .error _ => none
  else none

end Sys2Proof
end

