-- ==== Sys2Proof/Machine/State.lean ====
section
/-! DEFINITION. The state of the unit (10 R10 to R22), the moves of its host (20 R34), and the state after reset. -/

namespace Sys2Proof.Machine

/-- A buffer: its elements as (index, byte) cells, indices rising. In a well-formed state a buffer lists every index
`0 .. LEN-1` and no other (`Memory.wf`), so equal buffers are equal data. Log entry 3. -/
abbrev Memory := List Host.Cell

/-- A buffer of `len` elements that holds `f i` at index `i`. -/
def Memory.ofFn (len : Nat) (f : Nat → Byte) : Memory := (List.range len).map fun i => (i, f i)

/-- The moves of the host port, and no others (20 R34). -/
inductive Move where
  /-- `HostWrite(sp, i, v)`. -/
  | hostWrite (sp : Space) (i : Nat) (v : Byte)
  /-- `HostRead(sp, i)`. -/
  | hostRead (sp : Space) (i : Nat)
  /-- `HostReadR`. -/
  | hostReadR
  /-- `HostReadT`. -/
  | hostReadT
  /-- `HostReadFault`. -/
  | hostReadFault
  /-- `Issue(CW)`. -/
  | issue (cw : CommandWord)
  /-- `Reset`. -/
  | reset
deriving DecidableEq, Repr

/-- What a read of the host port returns (20 R34). -/
inductive Reply where
  /-- `HostRead(sp, i)` returned this element. -/
  | element (sp : Space) (i : Nat) (v : Byte)
  /-- `HostReadR` returned this `R`. -/
  | resultR (v : Byte)
  /-- `HostReadT` returned this `T`. -/
  | resultT (v : Bool)
  /-- `HostReadFault` returned this `FAULT` and `FCAUSE`. -/
  | faultStatus (fault : Bool) (fcause : BitVec 2)
deriving DecidableEq, Repr

/-- The state. `a`, `b`, `r`, `t`, `fault`, `fcause` are the unit's six items of state (10 R17). `cfg` is the instance's
parameter, which no step changes (10 R21). `resets`, `pending`, `replies` are the model's own fields (log entries 2, 4, 6). -/
structure State where
  /-- `LEN` of this instance (00 R8). -/
  cfg : Config
  /-- Buffer `A` (10 R10). -/
  a : Memory
  /-- Buffer `B` (10 R11). -/
  b : Memory
  /-- Result register `R`, 8 bits (10 R13). -/
  r : Byte
  /-- Result register `T`, 1 bit (10 R14). -/
  t : Bool
  /-- Sticky fault flag `FAULT`, 1 bit (10 R18). -/
  fault : Bool
  /-- Fault cause `FCAUSE`, 2 bits (10 R19). -/
  fcause : BitVec 2
  /-- The number of the reset the free values were last taken at (log entry 2). -/
  resets : Nat
  /-- The host's moves still to be made, the next one first (log entry 4). -/
  pending : List Move
  /-- What the host's reads have returned, oldest first (log entry 6). -/
  replies : List Reply
deriving DecidableEq, Repr

/-- Reasons a step stops with a fault OUTSIDE the spec's own fault mechanism: there are none, so the type has no
constructor. The unit's faults (60 R120 to R125) are next states in which `FAULT = 1` (log entry 7). -/
inductive Fault where
deriving DecidableEq, Repr

/-- Reasons a step has no meaning. -/
inductive Refusal where
  /-- An instruction whose arm in `exec` has no meaning yet, by its mnemonic. No arm raises it now. Safe. -/
  | notModelled (mnemonic : String)
  /-- A host access with an element index `>= LEN`: it "has no move: the model gives it no meaning" (20 R34). Raised by
  `hostWrite` and `hostRead`. Safe: nothing can be proved of a run that makes it. Log entry 7. -/
  | noSuchElement (sp : Space) (i : Nat)
deriving DecidableEq, Repr

/-- The state of instance `c` right after its power-on reset (10 R22, 70 R140): `FAULT = 0`, `FCAUSE = 0`, and free values
in `A`, `B`, `R` and `T`. No move is pending and none has been answered. -/
def State.resetOf (c : Config) : State where
  cfg := c
  a := Memory.ofFn c.len (Config.freeElem 0 .A)
  b := Memory.ofFn c.len (Config.freeElem 0 .B)
  r := Config.freeR 0
  t := Config.freeT 0
  fault := false
  fcause := 0#2
  resets := 0
  pending := []
  replies := []

/-- The reset state of the IPv4 instance, `LEN = 4` (log entry 1). -/
def State.reset : State := State.resetOf Config.ipv4

end Sys2Proof.Machine
end

