-- ==== Sys2Proof/Machine/Ops.lean ====
section
/-! DEFINITION. The named operations over buffers and registers, fault entry (60 R124) and reset (70 R140). -/

namespace Sys2Proof.Machine

/-- One step's outcome. -/
abbrev Result := Host.Outcome State Fault Refusal

/-! ## Buffers -/

/-- The canonical form of a buffer of `len` elements: it lists the indices `0 .. len-1` in order, each once. -/
def Memory.wf (m : Memory) (len : Nat) : Bool := decide (m.map Prod.fst = List.range len)

/-- `S[i]`, element `i` of buffer `S`. An index that is not listed has no element; reading it gives a free value. -/
def Memory.elem (m : Memory) (i : Nat) : Byte := (m.lookup i).getD (Config.unlistedElem i)

/-- Replace element `i` by its image under `f`; an index that is not listed has no element to replace. -/
def Memory.modify (m : Memory) (i : Nat) (f : Byte → Byte) : Memory :=
  m.map fun c => if c.1 = i then (c.1, f c.2) else c

/-- `S[i] <- v`. -/
def Memory.write (m : Memory) (i : Nat) (v : Byte) : Memory := m.modify i fun _ => v

/-- `elem(i) = i div 8`, the element in which array bit index `i` lives (20 R30). -/
def elemOf (i : Nat) : Nat := i / 8

/-- `pos(i) = 7 - (i mod 8)`, the position of array bit index `i` within its element (20 R30). -/
def posOf (i : Nat) : Nat := 7 - i % 8

/-- `bit(S, i) = S[elem(i)][pos(i)]` (20 R30). -/
def Memory.bit (m : Memory) (i : Nat) : Bool := (m.elem (elemOf i)).getLsbD (posOf i)

/-- `val(S)`, the whole buffer as one number, element 0 the most significant (20 R31). -/
def Memory.val (m : Memory) : Nat := m.foldl (fun acc c => acc * 256 + c.2.toNat) 0

/-- Add 1 to the buffer as a big-endian integer (41 R81 step (2)): from the last element toward the first, an element
`0xFF` becomes `0x00` and the carry goes on, and the first other element is incremented and ends the carry. Answers the
new buffer and the carry out of element 0. -/
def Memory.addOne : Memory → Memory × Bool
  | [] => ([], true)
  | c :: rest =>
    let below := Memory.addOne rest
    if below.2 = true then
      if c.2 = 0xFF#8 then ((c.1, 0x00#8) :: below.1, true) else ((c.1, c.2 + 1#8) :: below.1, false)
    else (c :: below.1, false)

/-- The buffer of the state that a space names (20 R33). -/
def State.buffer (s : State) (sp : Space) : Memory :=
  match sp with
  | .A => s.a
  | .B => s.b

/-- `TB` of the state's instance (00 R9). -/
def State.tb (s : State) : Nat := s.cfg.tb

/-! ## Registers -/

/-- Put a new content into buffer `A`; nothing else changes. -/
def State.setA (s : State) (m : Memory) : State := { s with a := m }

/-- Put a new content into buffer `B`; nothing else changes. Only the host port does this (10 R11). -/
def State.setB (s : State) (m : Memory) : State := { s with b := m }

/-- `R <- v`. -/
def State.setR (s : State) (v : Byte) : State := { s with r := v }

/-- `T <- v`. -/
def State.setT (s : State) (v : Bool) : State := { s with t := v }

/-- The host receives the value a read returned; the unit's state does not change (20 R34, R37). -/
def State.answer (s : State) (v : Reply) : State := { s with replies := s.replies ++ [v] }

/-! ## Faults and reset -/

/-- The causes of a fault (60 R125). -/
inductive Cause where
  | illegalCommand
  | indexRange
  | lengthRange
deriving DecidableEq, Repr

/-- The value a cause leaves in `FCAUSE` (60 R125); 0 is no fault. -/
def Cause.code : Cause → BitVec 2
  | .illegalCommand => 1#2
  | .indexRange => 2#2
  | .lengthRange => 3#2

/-- `raise Fault(cause)` (60 R124): `FAULT <- 1`, `FCAUSE <- cause`, nothing else changes. There is no return from it:
only `resetUnit` leaves the faulted state (60 R128). -/
def raiseFault (c : Cause) (s : State) : State := { s with fault := true, fcause := c.code }

/-- `Reset` (70 R140): `FAULT <- 0`, `FCAUSE <- 0`, and `A`, `B`, `R`, `T` take the free values of a new reset. `LEN` is
unchanged, and so are the host's own list of moves and the values it has received (log entry 2). -/
def resetUnit (s : State) : State :=
  { s with
    a := Memory.ofFn s.cfg.len (Config.freeElem (s.resets + 1) .A)
    b := Memory.ofFn s.cfg.len (Config.freeElem (s.resets + 1) .B)
    r := Config.freeR (s.resets + 1)
    t := Config.freeT (s.resets + 1)
    fault := false
    fcause := 0#2
    resets := s.resets + 1 }

end Sys2Proof.Machine
end

