-- ==== Sys2Proof/Machine/Operands.lean ====
section
/-! DEFINITION. The operand `N` as a bit index or a length: its range checks (60 R121, R122) and the masks made from it
(40 R71, 43 R100, 44 R111). -/

namespace Sys2Proof.Machine

/-- `MASK(n)`, the single-bit selector of array bit index `n` within its element (40 R71). -/
def maskOf (n : Nat) : Byte := 1#8 <<< posOf n

/-- `SUF(n) = MASK(n - 1) - 1`, ones at the positions of the boundary element that hold array bit indices `>= n` (43 R100).
Used only where `n mod 8 ≠ 0`, so `n - 1` exists and the subtraction does not wrap. -/
def suffixMask (n : Nat) : Byte := maskOf (n - 1) - 1#8

/-- `COV(n) = ~SUF(n)`, ones at the positions of the boundary element that hold array bit indices `< n` (44 R111).
Used only where `n mod 8 ≠ 0`. -/
def coveredMask (n : Nat) : Byte := ~~~ suffixMask n

/-- The range check of a bit index (60 R121): `N >= TB` raises `INDEX_RANGE` in place of the effect. -/
def whenIndexInRange (n : Nat) (s : State) (effect : State) : Result :=
  if s.tb ≤ n then .next (raiseFault .indexRange s) else .next effect

/-- The range check of a prefix length or fill start (60 R122): `N > TB` raises `LENGTH_RANGE` in place of the effect. -/
def whenLengthInRange (n : Nat) (s : State) (effect : State) : Result :=
  if s.tb < n then .next (raiseFault .lengthRange s) else .next effect

end Sys2Proof.Machine
end

