-- ==== Sys2Proof/Machine/Flags.lean ====
section
/-! DEFINITION. Every value the commands leave in the truth flag `T` (10 R14). -/

namespace Sys2Proof.Machine

/-- Whether bit `n` of the buffer is 1, as `get` computes it (40 R72): `(A[N div 8] & MASK(N)) != 0`. -/
def bitTest (m : Memory) (n : Nat) : Bool := decide (m.elem (elemOf n) &&& maskOf n ≠ 0#8)

/-- Whether adding 1 changed the guard bit, the bit at index `n - 1` (41 R81 step (3)). Used only where `n > 0`. -/
def guardChanged (m : Memory) (n : Nat) : Bool := bitTest (m.addOne).1 (n - 1) != bitTest m (n - 1)

/-- The report of `inc` (41 R81, R82): without a guard the carry out of element 0, with one whether the guard bit
changed. -/
def incReport (m : Memory) (n : Nat) : Bool := if n = 0 then m.addOne.2 else guardChanged m n

/-- Whether the part of element `i` at array bit indices `>= n` is all zeros (43 R101, R104): elements before the
boundary are not visited, the boundary element is tested under the suffix mask, later elements whole. -/
def elemZeroFrom (n i : Nat) (v : Byte) : Bool :=
  if i < elemOf n then true
  else if i = elemOf n ∧ n % 8 ≠ 0 then decide (v &&& suffixMask n = 0x00#8)
  else decide (v = 0x00#8)

/-- Whether the part of element `i` at array bit indices `>= n` is all ones (43 R101, R105). -/
def elemOnesFrom (n i : Nat) (v : Byte) : Bool :=
  if i < elemOf n then true
  else if i = elemOf n ∧ n % 8 ≠ 0 then decide (v &&& suffixMask n = suffixMask n)
  else decide (v = 0xFF#8)

/-- The answer of `is_zeroesfrom` (43 R104). -/
def allZeroFrom (m : Memory) (n : Nat) : Bool := m.all fun c => elemZeroFrom n c.1 c.2

/-- The answer of `is_onesfrom` (43 R105). -/
def allOnesFrom (m : Memory) (n : Nat) : Bool := m.all fun c => elemOnesFrom n c.1 c.2

/-- The answer of `contains` (44 R110): the fully covered elements agree, and so do the covered high-order bits of the
boundary element if `n` is not on an element boundary. -/
def agreeBelow (a b : Memory) (n : Nat) : Bool :=
  ((List.range (elemOf n)).all fun i => decide (a.elem i = b.elem i)) &&
    (if n % 8 ≠ 0 then decide ((a.elem (elemOf n) ^^^ b.elem (elemOf n)) &&& coveredMask n = 0x00#8) else true)

end Sys2Proof.Machine
end

