-- ==== Sys2Proof/Machine/BitAccess.lean ====
section
/-! DEFINITION. The bit accessors `mask`, `get`, `set`, `on`, `off`, `flip` (40). -/

namespace Sys2Proof.Machine

/-- Bit `n` of the buffer becomes 1: `A[n div 8] | MASK(n)` (40 R73, R74). -/
def turnBitOn (m : Memory) (n : Nat) : Memory := m.modify (elemOf n) fun v => v ||| maskOf n

/-- Bit `n` of the buffer becomes 0: `A[n div 8] & ~MASK(n)` (40 R73, R75). -/
def turnBitOff (m : Memory) (n : Nat) : Memory := m.modify (elemOf n) fun v => v &&& ~~~ maskOf n

/-- Bit `n` of the buffer is inverted: `A[n div 8] ^ MASK(n)` (40 R76). -/
def invertBit (m : Memory) (n : Nat) : Memory := m.modify (elemOf n) fun v => v ^^^ maskOf n

/-- `mask N` (40 R71): `R <- 1 << (7 - (N mod 8))`; never faults, reads no buffer. -/
def execMask (n : Nat) (s : State) : Result := .next (s.setR (maskOf n))

/-- `get N` (40 R72): `T <- bit(A, N)`. -/
def execGet (n : Nat) (s : State) : Result := whenIndexInRange n s (s.setT (bitTest s.a n))

/-- `set N, BIT` (40 R73): bit `N` of `A` becomes `BIT`. -/
def execSet (n : Nat) (bit : Bool) (s : State) : Result :=
  whenIndexInRange n s (s.setA (if bit = true then turnBitOn s.a n else turnBitOff s.a n))

/-- `on N` (40 R74): bit `N` of `A` becomes 1 (log entry 9). -/
def execOn (n : Nat) (s : State) : Result := whenIndexInRange n s (s.setA (turnBitOn s.a n))

/-- `off N` (40 R75): bit `N` of `A` becomes 0 (log entry 9). -/
def execOff (n : Nat) (s : State) : Result := whenIndexInRange n s (s.setA (turnBitOff s.a n))

/-- `flip N` (40 R76): bit `N` of `A` is inverted (log entry 9). -/
def execFlip (n : Nat) (s : State) : Result := whenIndexInRange n s (s.setA (invertBit s.a n))

end Sys2Proof.Machine
end

