-- ==== Sys2Proof/Machine/Containment.lean ====
section
/-! DEFINITION. The prefix-containment tester `contains` (44). -/

namespace Sys2Proof.Machine

/-- `contains N` (44 R110): `T <- 1` iff `A` and `B` agree on array bit indices `0 .. N-1`. -/
def execContains (n : Nat) (s : State) : Result := whenLengthInRange n s (s.setT (agreeBelow s.a s.b n))

end Sys2Proof.Machine
end

