-- ==== Sys2Proof/Machine/Increment.lean ====
section
/-! DEFINITION. The increment with prefix guard `inc` (41). -/

namespace Sys2Proof.Machine

/-- The buffer `inc N` leaves (41 R81): the buffer plus 1 and, if there is a guard bit and it changed, that bit
inverted back. The bits before the guard bit are NOT restored (41 R83, 90 C1; log entry 10). -/
def incBuffer (m : Memory) (n : Nat) : Memory :=
  if n ≠ 0 ∧ guardChanged m n = true then invertBit m.addOne.1 (n - 1) else m.addOne.1

/-- `inc N` (41 R80, R81): `A` is incremented under the guard and `T` receives the report, in one step. -/
def execInc (n : Nat) (s : State) : Result :=
  whenLengthInRange n s ((s.setA (incBuffer s.a n)).setT (incReport s.a n))

end Sys2Proof.Machine
end

