-- ==== Sys2Proof/Machine/RangeFill.lean ====
section
/-! DEFINITION. The range fills `zeroesfrom`, `onesfrom` and their predicates `is_zeroesfrom`, `is_onesfrom` (43). -/

namespace Sys2Proof.Machine

/-- What the walk of `zeroesfrom N` leaves in element `i` (43 R101, R102): elements before the boundary are not visited,
the boundary element keeps its leading `N mod 8` bits, later elements become `0x00`. -/
def zeroElem (n i : Nat) (v : Byte) : Byte :=
  if i < elemOf n then v
  else if i = elemOf n ∧ n % 8 ≠ 0 then v &&& ~~~ suffixMask n
  else 0x00#8

/-- What the walk of `onesfrom N` leaves in element `i` (43 R101, R103). -/
def onesElem (n i : Nat) (v : Byte) : Byte :=
  if i < elemOf n then v
  else if i = elemOf n ∧ n % 8 ≠ 0 then v ||| suffixMask n
  else 0xFF#8

/-- The buffer `zeroesfrom N` leaves (43 R102). -/
def zeroFrom (m : Memory) (n : Nat) : Memory := m.map fun c => (c.1, zeroElem n c.1 c.2)

/-- The buffer `onesfrom N` leaves (43 R103). -/
def onesFrom (m : Memory) (n : Nat) : Memory := m.map fun c => (c.1, onesElem n c.1 c.2)

/-- `zeroesfrom N` (43 R102): every bit of `A` at index `>= N` becomes 0. -/
def execZeroesfrom (n : Nat) (s : State) : Result := whenLengthInRange n s (s.setA (zeroFrom s.a n))

/-- `onesfrom N` (43 R103): every bit of `A` at index `>= N` becomes 1. -/
def execOnesfrom (n : Nat) (s : State) : Result := whenLengthInRange n s (s.setA (onesFrom s.a n))

/-- `is_zeroesfrom N` (43 R104): `T <- 1` iff every bit of `A` at index `>= N` is 0. -/
def execIsZeroesfrom (n : Nat) (s : State) : Result := whenLengthInRange n s (s.setT (allZeroFrom s.a n))

/-- `is_onesfrom N` (43 R105): `T <- 1` iff every bit of `A` at index `>= N` is 1. -/
def execIsOnesfrom (n : Nat) (s : State) : Result := whenLengthInRange n s (s.setT (allOnesFrom s.a n))

end Sys2Proof.Machine
end

