-- ==== Sys2Proof/Machine/SharedPrefix.lean ====
section
/-! DEFINITION. The shared-prefix-length comparator `shared_prefix_len` (42). -/

namespace Sys2Proof.Machine

/-- `clz8(x)`, the zero bits of `x` above its highest 1 (42 R91, its table of ranges). Used only for `x ≠ 0` (log entry 12). -/
def clz8 (x : Byte) : Nat :=
  if 128 ≤ x.toNat then 0
  else if 64 ≤ x.toNat then 1
  else if 32 ≤ x.toNat then 2
  else if 16 ≤ x.toNat then 3
  else if 8 ≤ x.toNat then 4
  else if 4 ≤ x.toNat then 5
  else if 2 ≤ x.toNat then 6
  else 7

/-- The lowest array bit index, within element `i`, at which the buffers differ: `i * 8 + clz8(A[i] ^ B[i])`; `none` if the
elements are equal (42 R90, R91). -/
def diffInElem (a b : Memory) (i : Nat) : Option Nat :=
  if a.elem i ^^^ b.elem i = 0#8 then none else some (i * 8 + clz8 (a.elem i ^^^ b.elem i))

/-- The scan from the first element forward: the first element that differs decides (42 R90). -/
def firstDiff (a b : Memory) (len : Nat) : Option Nat := (List.range len).findSome? (diffInElem a b)

/-- The number `shared_prefix_len N` computes (42 R90): 0 for `N = 0` without looking at any element, else the first
difference clipped to `N`, and `N` if no element differs. -/
def sharedPrefix (a b : Memory) (len n : Nat) : Nat :=
  if n = 0 then 0
  else match firstDiff a b len with
    | some d => min d n
    | none => n

/-- `shared_prefix_len N` (42 R90): `R <- min(d, N)`. -/
def execSharedPrefixLen (n : Nat) (s : State) : Result :=
  whenLengthInRange n s (s.setR (BitVec.ofNat 8 (sharedPrefix s.a s.b s.cfg.len n)))

end Sys2Proof.Machine
end

