-- ==== Sys2Proof/Machine/Dispatch.lean ====
section
/-! DEFINITION. One arm per command: which meaning each command has (30 R55). -/

namespace Sys2Proof.Machine

/-- The effect of a command that the unit has accepted and decoded (40 R70). -/
def exec (i : Instr) (s : State) : Host.Outcome State Fault Refusal :=
  match i with
  | .mask n => Sys2Proof.Machine.execMask n s
  | .get n => Sys2Proof.Machine.execGet n s
  | .set n bit => Sys2Proof.Machine.execSet n bit s
  | .on n => Sys2Proof.Machine.execOn n s
  | .off n => Sys2Proof.Machine.execOff n s
  | .flip n => Sys2Proof.Machine.execFlip n s
  | .inc n => Sys2Proof.Machine.execInc n s
  | .sharedPrefixLen n => Sys2Proof.Machine.execSharedPrefixLen n s
  | .zeroesfrom n => Sys2Proof.Machine.execZeroesfrom n s
  | .onesfrom n => Sys2Proof.Machine.execOnesfrom n s
  | .isZeroesfrom n => Sys2Proof.Machine.execIsZeroesfrom n s
  | .isOnesfrom n => Sys2Proof.Machine.execIsOnesfrom n s
  | .contains n => Sys2Proof.Machine.execContains n s

end Sys2Proof.Machine
end

