-- ==== Sys2Proof/Machine/Port.lean ====
section
/-! DEFINITION. The moves of the host port (20 R34), the command step among them (30 R55), and a run (70 R148). -/

namespace Sys2Proof.Machine

/-- `HostWrite(sp, i, v)` (20 R34): `sp[i] <- v`, whether `FAULT` is 0 or 1; no move if `i >= LEN`. -/
def hostWrite (sp : Space) (i : Nat) (v : Byte) (s : State) : Result :=
  if i < s.cfg.len then
    match sp with
    | .A => .next (s.setA (s.a.write i v))
    | .B => .next (s.setB (s.b.write i v))
  else .refused (.noSuchElement sp i)

/-- `HostRead(sp, i)` (20 R34): returns `sp[i]`; the unit's state does not change; no move if `i >= LEN`. -/
def hostRead (sp : Space) (i : Nat) (s : State) : Result :=
  if i < s.cfg.len then .next (s.answer (.element sp i ((s.buffer sp).elem i)))
  else .refused (.noSuchElement sp i)

/-- `HostReadR` (20 R34). -/
def hostReadR (s : State) : Result := .next (s.answer (.resultR s.r))

/-- `HostReadT` (20 R34). -/
def hostReadT (s : State) : Result := .next (s.answer (.resultT s.t))

/-- `HostReadFault` (20 R34): returns `FAULT` and `FCAUSE`. -/
def hostReadFault (s : State) : Result := .next (s.answer (.faultStatus s.fault s.fcause))

/-- `Issue(CW)` (30 R55, 60 R126): ignored while `FAULT = 1`; an illegal word raises `ILLEGAL_COMMAND`; any other word runs
the command it decodes to, whose range check comes before its effect. -/
def issue (cw : CommandWord) (s : State) : Result :=
  if s.fault = true then .next s
  else match decode cw with
    | .error _ => .next (raiseFault .illegalCommand s)
    | .ok i => exec i s

/-- One move of the host port (20 R34). -/
def makeMove (m : Move) (s : State) : Result :=
  match m with
  | .hostWrite sp i v => hostWrite sp i v s
  | .hostRead sp i => hostRead sp i s
  | .hostReadR => hostReadR s
  | .hostReadT => hostReadT s
  | .hostReadFault => hostReadFault s
  | .issue cw => issue cw s
  | .reset => .next (resetUnit s)

/-- The host's list of moves with its first move taken off. -/
def State.withPending (s : State) (moves : List Move) : State := { s with pending := moves }

/-- The next move of the host's list, if there is one; if the list is exhausted the run is over (70 R148) and, as the
unit starts nothing by itself (00 R6), nothing changes (log entry 5). -/
def nextMove (s : State) : Result :=
  match s.pending with
  | [] => .next s
  | m :: rest => makeMove m (s.withPending rest)

/-- The optional output wire that copies `FAULT` (60 R129). -/
def faultLine (s : State) : Bool := s.fault

/-- A run (70 R148): the moves applied in order, stopping at a move that has no meaning. -/
def runMoves (moves : List Move) (s : State) : Result :=
  match moves with
  | [] => .next s
  | m :: rest =>
    match makeMove m s with
    | .next s' => runMoves rest s'
    | .fault f => .fault f
    | .refused r => .refused r

end Sys2Proof.Machine
end

