-- ==== Sys2Proof/Machine/Step.lean ====
section
/-! DEFINITION. One step of the machine: the host's next move (20 R40: one total order of atomic moves). -/

namespace Sys2Proof.Machine

/-- One step: the next move of the host, made whole (20 R37). -/
def step (s : State) : Host.Outcome State Fault Refusal := nextMove s

/-- `s` with the word whose bits are `w` issued by the host as its very next move. The unit fetches nothing: the host
presents each command word at the port (10 R16), so this stands for the host's `Issue` (log entry 4). -/
def State.withFetchWord (s : State) (nbits w : Nat) : State :=
  s.withPending (.issue (BitVec.ofNat 16 (w % 2 ^ nbits)) :: s.pending)

end Sys2Proof.Machine
end

