-- ==== Sys2Proof/Machine/Assembler.lean ====
section
/-! DEFINITION. The textual form of commands and of host moves (30 R59), as a function from one line of characters. -/

namespace Sys2Proof.Machine

/-- Why a line has no command word. -/
inductive AsmError where
  /-- The first word is no mnemonic of 30 R53 (nor, in a program, a host move). -/
  | unknownMnemonic
  /-- The operands do not have the form of 30 R59. -/
  | wrongOperands
  /-- An operand is neither a decimal number nor a `0x` hexadecimal one. -/
  | notANumber
  /-- `<n> > 255`, or a byte above 255: it cannot be encoded (30 R59). -/
  | numberTooLarge
  /-- `<bit> > 1`: it cannot be encoded (30 R59). -/
  | bitTooLarge
deriving DecidableEq, Repr

/-- The line without its comment: `;` starts a comment to the end of the line (30 R59). -/
def withoutComment (line : List Char) : List Char := line.takeWhile fun c => c != ';'

/-- A finished word of the line, if there is one. -/
def finishedWord (w : List Char) : List (List Char) := if w = [] then [] else [w]

/-- The words of a line: blanks separate words, a comma is a word of its own; `w` is the word being read (log entry 15). -/
def wordsFrom (w : List Char) : List Char → List (List Char)
  | [] => finishedWord w
  | c :: rest =>
    if c = ' ' ∨ c = '\t' then finishedWord w ++ wordsFrom [] rest
    else if c = ',' then finishedWord w ++ [','] :: wordsFrom [] rest
    else wordsFrom (w ++ [c]) rest

/-- The value of a digit in base 10 or 16. -/
def digitValue (base : Nat) (c : Char) : Option Nat :=
  let v := if '0' ≤ c ∧ c ≤ '9' then some (c.toNat - 48)
    else if 'a' ≤ c ∧ c ≤ 'f' then some (c.toNat - 87)
    else if 'A' ≤ c ∧ c ≤ 'F' then some (c.toNat - 55)
    else none
  match v with
  | some d => if d < base then some d else none
  | none => none

/-- The number a list of digits denotes, continuing from `acc`. -/
def digitsFrom (base acc : Nat) : List Char → Option Nat
  | [] => some acc
  | c :: rest =>
    match digitValue base c with
    | some d => digitsFrom base (acc * base + d) rest
    | none => none

/-- A number, decimal or `0x` hexadecimal (30 R59). -/
def number (w : List Char) : Except AsmError Nat :=
  let v := match w with
    | [] => none
    | '0' :: 'x' :: d :: rest => digitsFrom 16 0 (d :: rest)
    | d :: rest => digitsFrom 10 0 (d :: rest)
  match v with
  | some k => .ok k
  | none => .error .notANumber

/-- A number 0 to 255; a larger one is refused (30 R59). -/
def byteNumber (w : List Char) : Except AsmError Nat :=
  match number w with
  | .ok k => if 255 < k then .error .numberTooLarge else .ok k
  | .error e => .error e

/-- A bit, 0 or 1; a larger number is refused (30 R59). DESIGN CHOICE, log entry 15: the bit is read in any notation of a
number, so `0x1` and `01` are accepted as 1; R59 grants `0x` to `<n>` and says of `<bit>` only that it is 0 or 1. -/
def bitNumber (w : List Char) : Except AsmError Bool :=
  match number w with
  | .ok k => if 1 < k then .error .bitTooLarge else .ok (decide (k = 1))
  | .error e => .error e

/-- The mnemonic of a command, spelt as the source spells it (30 R53, R59). -/
def mnemonic : Instr → String
  | .mask _ => "mask"
  | .get _ => "get"
  | .set _ _ => "set"
  | .on _ => "on"
  | .off _ => "off"
  | .flip _ => "flip"
  | .inc _ => "inc"
  | .sharedPrefixLen _ => "shared_prefix_len"
  | .zeroesfrom _ => "zeroesfrom"
  | .onesfrom _ => "onesfrom"
  | .isZeroesfrom _ => "is_zeroesfrom"
  | .isOnesfrom _ => "is_onesfrom"
  | .contains _ => "contains"

/-- The twelve commands of format `N` (30 R52), each made from its operand. -/
def formatN : List (Nat → Instr) :=
  [.mask, .get, .on, .off, .flip, .inc, .sharedPrefixLen, .zeroesfrom, .onesfrom, .isZeroesfrom, .isOnesfrom, .contains]

/-- The command a line's words denote: `<mnemonic> <n>` or `set <n>, <bit>` (30 R59). -/
def commandOfWords (ws : List (List Char)) : Except AsmError Instr :=
  match ws with
  | [] => .error .unknownMnemonic
  | name :: operands =>
    if name = "set".toList then
      match operands with
      | [n, [','], bit] =>
        match byteNumber n, bitNumber bit with
        | .ok k, .ok b => .ok (.set k b)
        | .error e, _ => .error e
        | _, .error e => .error e
      | _ => .error .wrongOperands
    else match formatN.find? fun make => decide ((mnemonic (make 0)).toList = name) with
      | none => .error .unknownMnemonic
      | some make =>
        match operands with
        | [n] =>
          match byteNumber n with
          | .ok k => .ok (make k)
          | .error e => .error e
        | _ => .error .wrongOperands

/-- The command word of a line of assembly (30 R59): `CW = (OP << 12) | (BIT << 8) | N`. -/
def assemble (line : List Char) : Except AsmError CommandWord :=
  match commandOfWords (wordsFrom [] (withoutComment line)) with
  | .ok i => .ok (encode i)
  | .error e => .error e

/-- Whether an assembler should warn that the unit will fault the command at execution on an instance (30 R59; the
ranges are those of 60 R121, R122). -/
def shouldWarn (c : Config) : Instr → Bool
  | .mask _ => false
  | .get n => decide (c.tb ≤ n)
  | .set n _ => decide (c.tb ≤ n)
  | .on n => decide (c.tb ≤ n)
  | .off n => decide (c.tb ≤ n)
  | .flip n => decide (c.tb ≤ n)
  | .inc n => decide (c.tb < n)
  | .sharedPrefixLen n => decide (c.tb < n)
  | .zeroesfrom n => decide (c.tb < n)
  | .onesfrom n => decide (c.tb < n)
  | .isZeroesfrom n => decide (c.tb < n)
  | .isOnesfrom n => decide (c.tb < n)
  | .contains n => decide (c.tb < n)

/-- The text of a command, its number in decimal (30 R59). -/
def commandText (i : Instr) : List Char :=
  (mnemonic i).toList ++ ' ' :: Nat.toDigits 10 i.n ++
    (match i with
      | .set _ true => ", 1".toList
      | .set _ false => ", 0".toList
      | .mask _ => []
      | .get _ => []
      | .on _ => []
      | .off _ => []
      | .flip _ => []
      | .inc _ => []
      | .sharedPrefixLen _ => []
      | .zeroesfrom _ => []
      | .onesfrom _ => []
      | .isZeroesfrom _ => []
      | .isOnesfrom _ => []
      | .contains _ => [])

/-- The host move a program's line denotes: `wrA i, v`, `wrB i, v`, `rdA i`, `rdB i`, `rdR`, `rdT`, `rdF`, `reset`, or the
issue of a command (30 R59). An element index is any number; whether it has a move depends on `LEN` (20 R34). -/
def moveOfLine (line : List Char) : Except AsmError Move :=
  let ws := wordsFrom [] (withoutComment line)
  let writeMove (sp : Space) (operands : List (List Char)) : Except AsmError Move :=
    match operands with
    | [i, [','], v] =>
      match number i, byteNumber v with
      | .ok k, .ok x => .ok (.hostWrite sp k (BitVec.ofNat 8 x))
      | .error e, _ => .error e
      | _, .error e => .error e
    | _ => .error .wrongOperands
  let readMove (sp : Space) (operands : List (List Char)) : Except AsmError Move :=
    match operands with
    | [i] =>
      match number i with
      | .ok k => .ok (.hostRead sp k)
      | .error e => .error e
    | _ => .error .wrongOperands
  let plainMove (m : Move) (operands : List (List Char)) : Except AsmError Move :=
    if operands = [] then .ok m else .error .wrongOperands
  match ws with
  | [] => .error .unknownMnemonic
  | name :: operands =>
    if name = "wrA".toList then writeMove .A operands
    else if name = "wrB".toList then writeMove .B operands
    else if name = "rdA".toList then readMove .A operands
    else if name = "rdB".toList then readMove .B operands
    else if name = "rdR".toList then plainMove .hostReadR operands
    else if name = "rdT".toList then plainMove .hostReadT operands
    else if name = "rdF".toList then plainMove .hostReadFault operands
    else if name = "reset".toList then plainMove .reset operands
    else match commandOfWords ws with
      | .ok i => .ok (.issue (encode i))
      | .error e => .error e

end Sys2Proof.Machine
end

