-- ==== Sys2Proof/Machine/Pseudo.lean ====
section
/-! DEFINITION. The command sequences of the collaborator layer's operations (30 R62, informative). The host has put the
address in `A` first, with prefix length `p`. -/

namespace Sys2Proof.Machine

/-- The moves that issue a list of commands in order. -/
def issues (commands : List Instr) : List Move := commands.map fun i => .issue (encode i)

/-- `first()`, the base address, left in `A`. -/
def firstAddress (p : Nat) : List Instr := [.zeroesfrom p]

/-- `last()`, the broadcast address, left in `A`. -/
def lastAddress (p : Nat) : List Instr := [.onesfrom p]

/-- `contains(address)`, network in `A` and address in `B`, answered in `T`. -/
def containsAddress (p : Nat) : List Instr := [.contains p]

/-- `mask()`, the netmask, left in `A`. -/
def netmask (p : Nat) : List Instr := [.onesfrom 0, .zeroesfrom p]

/-- Whether the host bits are clean, answered in `T`. -/
def hostBitsClean (p : Nat) : List Instr := [.isZeroesfrom p]

/-- Whether `A` is the maximum address of its block, answered in `T`. -/
def isMaximumAddress (p : Nat) : List Instr := [.isOnesfrom p]

/-- The next host inside a network, left in `A`; `T = 1` means the iteration is over. -/
def nextHost (p : Nat) : List Instr := [.inc p]

/-- The length of the longest common supernet of the networks in `A` and `B`, left in `R`. -/
def commonSupernet (pa pb : Nat) : List Instr := [.sharedPrefixLen (min pa pb)]

/-- After `commonSupernet pa pb`: the two networks are nested, not disjoint. -/
def nested (pa pb : Nat) (s : State) : Bool := decide (s.r.toNat = min pa pb)

end Sys2Proof.Machine
end

