-- ==== Sys2Proof/Safety.lean ====
section
/-! DEFINITION. Well-formed states, and what counts as a safe run (70 R148). -/

namespace Sys2Proof.Machine

/-- The invariant of the unit: `LEN` is in its range (00 R8), each buffer lists exactly its `LEN` elements (10 R10, R11), and
`FAULT = 0` if and only if `FCAUSE = 0` (10 R19). -/
def State.wf (s : State) : Bool :=
  s.cfg.wf && Memory.wf s.a s.cfg.len && Memory.wf s.b s.cfg.len && (!s.fault == decide (s.fcause = 0#2))

/-- A state a claim may call successful at the end of a run: `FAULT = 0` (60 R127, 70 R148). -/
def Successful (s : State) : Bool := !s.fault

/-- Two states whose unit state and parameter are the same, whatever the host still wants and has been told. -/
def SameUnit (s u : State) : Bool :=
  decide (s.cfg = u.cfg ∧ s.a = u.a ∧ s.b = u.b ∧ s.r = u.r ∧ s.t = u.t ∧ s.fault = u.fault ∧ s.fcause = u.fcause)

/-- A successful run of a list of moves from a state: every move has a meaning, and `FAULT = 0` at the end (70 R148). -/
def SafeRun (moves : List Move) (s : State) : Bool :=
  match runMoves moves s with
  | .next s' => Successful s'
  | .fault _ => false
  | .refused _ => false

end Sys2Proof.Machine
end

