-- ==== Sys2Proof/Certificates/Slice0/Obligations.lean ====
section
/-! DEFINITION. The statements for the provers, from the numbered rules of the spec. -/

namespace Sys2Proof.Claims

open Sys2Proof Sys2Proof.Machine

/-- `A` may be written by the command (10 R10, R15). -/
def writesA : Instr → Bool
  | .set _ _ | .on _ | .off _ | .flip _ | .inc _ | .zeroesfrom _ | .onesfrom _ => true
  | .mask _ | .get _ | .sharedPrefixLen _ | .isZeroesfrom _ | .isOnesfrom _ | .contains _ => false

/-- `R` may be written by the command (10 R13, R15). -/
def writesR : Instr → Bool
  | .mask _ | .sharedPrefixLen _ => true
  | .get _ | .set _ _ | .on _ | .off _ | .flip _ | .inc _ | .zeroesfrom _ | .onesfrom _ | .isZeroesfrom _
  | .isOnesfrom _ | .contains _ => false

/-- `T` may be written by the command (10 R14, R15). -/
def writesT : Instr → Bool
  | .get _ | .inc _ | .isZeroesfrom _ | .isOnesfrom _ | .contains _ => true
  | .mask _ | .set _ _ | .on _ | .off _ | .flip _ | .sharedPrefixLen _ | .zeroesfrom _ | .onesfrom _ => false

/-- The operand is a bit index that must exist (60 R121). -/
def takesIndex : Instr → Bool
  | .get _ | .set _ _ | .on _ | .off _ | .flip _ => true
  | .mask _ | .inc _ | .sharedPrefixLen _ | .zeroesfrom _ | .onesfrom _ | .isZeroesfrom _ | .isOnesfrom _
  | .contains _ => false

/-- The operand is a length or the start of a suffix (60 R122). -/
def takesLength : Instr → Bool
  | .inc _ | .sharedPrefixLen _ | .zeroesfrom _ | .onesfrom _ | .isZeroesfrom _ | .isOnesfrom _ | .contains _ => true
  | .mask _ | .get _ | .set _ _ | .on _ | .off _ | .flip _ => false

/-- `B` is read by the command (10 R11). -/
def readsB : Instr → Bool
  | .sharedPrefixLen _ | .contains _ => true
  | .mask _ | .get _ | .set _ _ | .on _ | .off _ | .flip _ | .inc _ | .zeroesfrom _ | .onesfrom _ | .isZeroesfrom _
  | .isOnesfrom _ => false

/-- Every bit of the buffer at index `>= n`, below `tb`, has the value `v`. -/
def suffixIs (m : Memory) (tb n : Nat) (v : Bool) : Prop := ∀ j, n ≤ j → j < tb → m.bit j = v

/-- Two buffers agree on every bit at index `< n`. -/
def sameBelow (m m' : Memory) (n : Nat) : Prop := ∀ j, j < n → m.bit j = m'.bit j

/-- The encoding of a format `N` command (30 R52): every word of its row, the number `N` in the low byte. -/
def encodesAs (make : Nat → Instr) (row : CommandWord) : Prop :=
  ∀ n, n < 256 → encode (make n) = row ||| BitVec.ofNat 16 n

/-- A command that, for a bit index `n < TB`, leaves the value `v s` in bit `n` of `A`, changes no other bit, no element
but `elemOf n`, and nothing else of the state. -/
def storesBit (make : Nat → Instr) (v : State → Nat → Bool) : Prop :=
  ∀ (s : State) (n : Nat), s.wf = true → n < s.tb →
    ∃ m, exec (make n) s = .next { s with a := m } ∧ Memory.wf m s.cfg.len = true ∧
      (∀ j, j < s.tb → m.bit j = if j = n then v s n else s.a.bit j) ∧
      (∀ i, i ≠ elemOf n → m.elem i = s.a.elem i)

/-- The fault entry for an operand that fails its range check: `FAULT` and `FCAUSE` and nothing else (60 R124). -/
def faultsWith (code : BitVec 2) (i : Instr) (s : State) : Prop :=
  exec i s = .next { s with fault := true, fcause := code }

/-- Two runs of a command, from `s` to `s'` and from `u` to `u'`, had the same effect: the same fault or none, and whatever
was written to `R` or `T` is the same (10 R20). -/
def sameEffect (s s' u u' : State) : Prop :=
  s'.fault = u'.fault ∧
  ((s'.fcause = s.fcause ∧ u'.fcause = u.fcause) ∨ s'.fcause = u'.fcause) ∧
  ((s'.r = s.r ∧ u'.r = u.r) ∨ s'.r = u'.r) ∧
  ((s'.t = s.t ∧ u'.t = u.t) ∨ s'.t = u'.t)

/-- `k` consecutive `inc 0` commands. -/
def incZeroTimes (k : Nat) : List Move := List.replicate k (.issue (encode (.inc 0)))

end Sys2Proof.Claims

open Sys2Proof Sys2Proof.Machine Sys2Proof.Claims

/-! ## Encoding -/

/-- Every command whose operand fits its field decodes from its own word (30 R51, R53, R59). -/
def Obligations.DecodeOfEncodeIsTheCommand : Prop :=
  ∀ i : Instr, i.wellFormed = true → decode (encode i) = .ok i

/-- Each legal word has one meaning: the command it decodes to is well formed and encodes to it. -/
def Obligations.EncodeOfDecodeIsTheWord : Prop :=
  ∀ (w : CommandWord) (i : Instr), decode w = .ok i → i.wellFormed = true ∧ encode i = w

/-- 30 R52: a format `N` command with operation number `op` is every word `w` with `w & 0xFF00 = op << 12`, and `set` is every
word with `w & 0xFE00 = 0x2000`; in both, `N` is the low byte, and in `set` `BIT` is position 8. -/
def Obligations.LegalWordsAreTheOpcodeRows : Prop :=
  ∀ w : CommandWord,
    (∀ op, op < 13 → op ≠ 2 →
      ((∃ i, decode w = .ok i ∧ i.opNumber = op) ↔ w &&& 0xFF00#16 = BitVec.ofNat 16 op <<< 12)) ∧
    ((∃ n b, decode w = .ok (.set n b)) ↔ w &&& 0xFE00#16 = 0x2000#16) ∧
    (∀ i, decode w = .ok i → i.opNumber < 13 ∧ i.n = w.toNat % 256 ∧ i.bitField = w.getLsbD 8)

/-- 30 R60: the table of encoding examples, as assembly text and as decoded command, and its three illegal words. -/
def Obligations.EncodingExamplesOfTheSpec : Prop :=
  (∀ row ∈ [("mask 10", 0x000A#16, Instr.mask 10), ("get 5", 0x1005#16, Instr.get 5),
      ("set 5, 1", 0x2105#16, Instr.set 5 true), ("set 5, 0", 0x2005#16, Instr.set 5 false),
      ("on 31", 0x301F#16, Instr.on 31), ("off 0", 0x4000#16, Instr.off 0), ("flip 127", 0x507F#16, Instr.flip 127)],
    assemble row.1.toList = .ok row.2.1 ∧ decode row.2.1 = .ok row.2.2) ∧
  (∀ row ∈ [("inc 24", 0x6018#16, Instr.inc 24), ("shared_prefix_len 32", 0x7020#16, Instr.sharedPrefixLen 32),
      ("zeroesfrom 24", 0x8018#16, Instr.zeroesfrom 24), ("onesfrom 24", 0x9018#16, Instr.onesfrom 24),
      ("is_zeroesfrom 24", 0xA018#16, Instr.isZeroesfrom 24), ("is_onesfrom 128", 0xB080#16, Instr.isOnesfrom 128),
      ("contains 24", 0xC018#16, Instr.contains 24)],
    assemble row.1.toList = .ok row.2.1 ∧ decode row.2.1 = .ok row.2.2) ∧
  decode 0xD000#16 = .error .reservedOperation ∧ decode 0x1105#16 = .error .bitOutsideSet ∧
  decode 0x1205#16 = .error .zeroFieldNotZero

/-- 30 R59: the text of a command assembles to its word, and whatever a line assembles to is a legal word. -/
def Obligations.AssemblerAgreesWithEncoder : Prop :=
  (∀ i : Instr, i.wellFormed = true → assemble (commandText i) = .ok (encode i)) ∧
  (∀ (line : List Char) (w : CommandWord), assemble line = .ok w → ∃ i, i.wellFormed = true ∧ decode w = .ok i)

/-- 30 R59: an assembler's warning is given exactly for the commands that the instance will fault. -/
def Obligations.AssemblerWarnsExactlyOfRangeFaults : Prop :=
  ∀ (i : Instr) (s : State), s.fault = false →
    (shouldWarn s.cfg i = true ↔ ∃ s', exec i s = .next s' ∧ s'.fault = true)

/-! ## One step -/

/-- 30 R55, 20 R34: when the host's next move issues a word, `FAULT = 0`, and the word decodes to `i`, the step is `exec i`
with that move taken off the host's list. -/
def Obligations.StepRunsTheDecodedCommand : Prop :=
  ∀ (s : State) (w : CommandWord) (rest : List Move) (i : Instr),
    s.pending = .issue w :: rest → s.fault = false → decode w = .ok i → step s = exec i { s with pending := rest }

/-- 30 R56, 60 R123: a word is illegal exactly when one of the three conditions holds, and issuing it raises ILLEGAL_COMMAND
and changes nothing else. -/
def Obligations.IllegalWordRaisesIllegalCommand : Prop :=
  ∀ w : CommandWord,
    ((∃ e, decode w = .error e) ↔
      (13 ≤ (w >>> 12).toNat ∨ w &&& 0x0E00#16 ≠ 0#16 ∨ (w &&& 0x0100#16 ≠ 0#16 ∧ (w >>> 12).toNat ≠ 2))) ∧
    ∀ (s : State) (rest : List Move), s.pending = .issue w :: rest → s.fault = false → (∃ e, decode w = .error e) →
      step s = .next { s with pending := rest, fault := true, fcause := 1#2 }

/-- 60 R127: while `FAULT = 1` an issued word changes nothing, whatever the word; the port's reads and writes do what they do
with `FAULT = 0`, and `HostReadFault` shows the first cause; such a state is no successful end. -/
def Obligations.FaultedUnitIgnoresEveryCommand : Prop :=
  ∀ (s : State) (rest : List Move), s.fault = true →
    Successful s = false ∧
    (∀ w, s.pending = .issue w :: rest → step s = .next { s with pending := rest }) ∧
    (∀ m, (∃ sp i v, i < s.cfg.len ∧ m = .hostWrite sp i v) ∨ (∃ sp i, i < s.cfg.len ∧ m = .hostRead sp i) ∨
        m = .hostReadR ∨ m = .hostReadT →
      s.pending = m :: rest →
      ∃ u, step s = .next u ∧ step { s with fault := false } = .next { u with fault := false }) ∧
    (s.pending = .hostReadFault :: rest →
      step s = .next { s with pending := rest, replies := s.replies ++ [.faultStatus true s.fcause] })

/-- 70 R146: every issued command completes: for every state and every word the step has a next state. -/
def Obligations.EveryIssuedCommandCompletes : Prop :=
  ∀ (s : State) (w : CommandWord) (rest : List Move), s.pending = .issue w :: rest → ∃ s', step s = .next s'

/-- A step is never a model-level fault, and it is refused only for a host access to an element that does not exist
(20 R34, 60 R132). -/
def Obligations.StepIsRefusedOnlyForAbsentElements : Prop :=
  ∀ s : State,
    (∀ f, step s ≠ .fault f) ∧
    (∀ q, step s = .refused q →
      ∃ sp i rest, q = .noSuchElement sp i ∧ s.cfg.len ≤ i ∧
        (s.pending = .hostRead sp i :: rest ∨ ∃ v, s.pending = .hostWrite sp i v :: rest))

/-! ## The host port -/

/-- 20 R34: the moves of the host port, whatever `FAULT` is. A write stores one element and changes nothing else; the reads return
an element, `R`, `T`, or `FAULT` with `FCAUSE`, and change nothing of the unit; an index `>= LEN` has no move; `Issue` is the
command step and `Reset` the reset. -/
def Obligations.HostPortMoves : Prop :=
  ∀ (s : State) (rest : List Move), s.wf = true →
    (∀ i v, s.pending = .hostWrite .A i v :: rest → i < s.cfg.len →
      ∃ m, step s = .next { s with pending := rest, a := m } ∧ Memory.wf m s.cfg.len = true ∧
        m.elem i = v ∧ ∀ j, j ≠ i → m.elem j = s.a.elem j) ∧
    (∀ i v, s.pending = .hostWrite .B i v :: rest → i < s.cfg.len →
      ∃ m, step s = .next { s with pending := rest, b := m } ∧ Memory.wf m s.cfg.len = true ∧
        m.elem i = v ∧ ∀ j, j ≠ i → m.elem j = s.b.elem j) ∧
    (∀ i, s.pending = .hostRead .A i :: rest → i < s.cfg.len →
      step s = .next { s with pending := rest, replies := s.replies ++ [.element .A i (s.a.elem i)] }) ∧
    (∀ i, s.pending = .hostRead .B i :: rest → i < s.cfg.len →
      step s = .next { s with pending := rest, replies := s.replies ++ [.element .B i (s.b.elem i)] }) ∧
    (∀ sp i v, s.pending = .hostWrite sp i v :: rest ∨ s.pending = .hostRead sp i :: rest → s.cfg.len ≤ i →
      step s = .refused (.noSuchElement sp i)) ∧
    (s.pending = .hostReadR :: rest → step s = .next { s with pending := rest, replies := s.replies ++ [.resultR s.r] }) ∧
    (s.pending = .hostReadT :: rest → step s = .next { s with pending := rest, replies := s.replies ++ [.resultT s.t] }) ∧
    (s.pending = .hostReadFault :: rest →
      step s = .next { s with pending := rest, replies := s.replies ++ [.faultStatus s.fault s.fcause] }) ∧
    (∀ w, s.pending = .issue w :: rest → step s = issue w { s with pending := rest }) ∧
    (s.pending = .reset :: rest → step s = .next (resetUnit { s with pending := rest }))

/-- 20 R37, R33, R40: a write made twice is a write made once; writes to different elements, or to different spaces, may be made in
either order, so nothing aliases. -/
def Obligations.HostWritesAreIdempotentAndCommute : Prop :=
  ∀ (s : State) (sp sp' : Space) (i j : Nat) (v w : Byte), i < s.cfg.len → j < s.cfg.len →
    runMoves [.hostWrite sp i v, .hostWrite sp i v] s = runMoves [.hostWrite sp i v] s ∧
    (sp ≠ sp' ∨ i ≠ j →
      runMoves [.hostWrite sp i v, .hostWrite sp' j w] s = runMoves [.hostWrite sp' j w, .hostWrite sp i v] s)

/-- 20 R37, R40: a read returns what the latest write to that element left, however often it is made, and the reads leave the
unit as the write left it. -/
def Obligations.HostReadReturnsTheLatestWrite : Prop :=
  ∀ (s : State) (sp : Space) (i : Nat) (v : Byte), s.wf = true → i < s.cfg.len →
    ∃ u, runMoves [.hostWrite sp i v] s = .next u ∧
      runMoves [.hostWrite sp i v, .hostRead sp i, .hostRead sp i] s =
        .next { u with replies := s.replies ++ [.element sp i v, .element sp i v] }

/-! ## Faults, reset, invariants -/

/-- 60 R121: INDEX_RANGE is raised by `get`, `set`, `on`, `off`, `flip` when `N >= TB`, and by nothing else. -/
def Obligations.IndexRangeRaisedExactlyByIndexCommands : Prop :=
  (∀ (i : Instr) (s : State), s.fault = false →
    ((∃ s', exec i s = .next s' ∧ s'.fault = true ∧ s'.fcause = 2#2) ↔ (takesIndex i = true ∧ s.tb ≤ i.n))) ∧
  (∀ s s' : State, step s = .next s' → s.fault = false → s'.fault = true → s'.fcause = 2#2 →
    ∃ w rest i, s.pending = .issue w :: rest ∧ decode w = .ok i ∧ takesIndex i = true ∧ s.tb ≤ i.n)

/-- 60 R122: LENGTH_RANGE is raised by the seven length-taking commands when `N > TB`, and by nothing else. -/
def Obligations.LengthRangeRaisedExactlyByLengthCommands : Prop :=
  (∀ (i : Instr) (s : State), s.fault = false →
    ((∃ s', exec i s = .next s' ∧ s'.fault = true ∧ s'.fcause = 3#2) ↔ (takesLength i = true ∧ s.tb < i.n))) ∧
  (∀ s s' : State, step s = .next s' → s.fault = false → s'.fault = true → s'.fcause = 3#2 →
    ∃ w rest i, s.pending = .issue w :: rest ∧ decode w = .ok i ∧ takesLength i = true ∧ s.tb < i.n)

/-- 60 R120, R124: whatever the move, `FAULT` goes from 0 to 1 only as the direct result of an issued command, with one of the
three causes, and then NOTHING of the unit but `FAULT` and `FCAUSE` has changed: the fault is precise. -/
def Obligations.FaultsArePreciseAndOnlyFromCommands : Prop :=
  ∀ s s' : State, step s = .next s' → s.fault = false → s'.fault = true →
    ∃ w rest code, s.pending = .issue w :: rest ∧ (code = 1#2 ∨ code = 2#2 ∨ code = 3#2) ∧
      s' = { s with pending := rest, fault := true, fcause := code }

/-- 10 R18, 60 R128: `FAULT` is sticky: a step from a faulted state keeps `FAULT` and `FCAUSE` unless the move is Reset. -/
def Obligations.OnlyResetLeavesTheFaultedState : Prop :=
  ∀ s s' : State, s.fault = true → step s = .next s' →
    (s'.fault = true ∧ s'.fcause = s.fcause) ∨
    (∃ rest, s.pending = .reset :: rest ∧ s'.fault = false ∧ s'.fcause = 0#2)

/-- 70 R140, 10 R22: Reset is available in every state, clears `FAULT` and `FCAUSE`, leaves `LEN` and the host's own lists as
they were, and leaves each buffer with `LEN` elements. Nothing is said of the elements, `R` and `T`: they are unspecified. -/
def Obligations.ResetClearsTheFault : Prop :=
  ∀ (s : State) (rest : List Move), s.pending = .reset :: rest →
    ∃ s', step s = .next s' ∧ s'.fault = false ∧ s'.fcause = 0#2 ∧ s'.cfg = s.cfg ∧
      Memory.wf s'.a s.cfg.len = true ∧ Memory.wf s'.b s.cfg.len = true ∧ s'.pending = rest ∧ s'.replies = s.replies

/-- The invariant: `LEN` in its range, each buffer exactly `LEN` elements, `FAULT = 0` iff `FCAUSE = 0` (00 R8, 10 R10, R11,
R19). Every step keeps it. -/
def Obligations.EveryStepKeepsTheStateWellFormed : Prop :=
  ∀ s s' : State, s.wf = true → step s = .next s' → s'.wf = true

/-- 10 R22: the reset state of every instance meets the invariant, with `FAULT = 0` and `FCAUSE = 0`. -/
def Obligations.ResetStateIsWellFormed : Prop :=
  (∀ c : Config, c.wf = true →
    (State.resetOf c).wf = true ∧ (State.resetOf c).cfg = c ∧ (State.resetOf c).fault = false ∧
      (State.resetOf c).fcause = 0#2) ∧
  State.reset.wf = true ∧ State.reset.fault = false ∧ State.reset.fcause = 0#2

/-- 10 R21, R11, R15: the frame of every command: it completes; `LEN`, `B` and the host's lists are unchanged; `A`, `R`, `T` are
unchanged unless its rule names them; `FAULT` and `FCAUSE` change only together. -/
def Obligations.CommandsWriteOnlyWhatTheirRuleNames : Prop :=
  ∀ (i : Instr) (s : State), ∃ s', exec i s = .next s' ∧
    s'.cfg = s.cfg ∧ s'.b = s.b ∧ s'.resets = s.resets ∧ s'.pending = s.pending ∧ s'.replies = s.replies ∧
    (writesA i = false → s'.a = s.a) ∧ (writesR i = false → s'.r = s.r) ∧ (writesT i = false → s'.t = s.t) ∧
    ((s'.fault = s.fault ∧ s'.fcause = s.fcause) ∨
      (s'.fault = true ∧ s'.a = s.a ∧ s'.r = s.r ∧ s'.t = s.t))

/-- 10 R20: the effect of a command depends on the word, `A`, `B` and `LEN` alone; on `B` only for `shared_prefix_len` and
`contains`; for `mask` on the word alone. -/
def Obligations.CommandEffectIsHistoryIndependent : Prop :=
  (∀ (w : CommandWord) (s u : State), s.fault = false → u.fault = false → s.cfg = u.cfg → s.a = u.a →
    (s.b = u.b ∨ ∀ i, decode w = .ok i → readsB i = false) →
    ∃ s' u', issue w s = .next s' ∧ issue w u = .next u' ∧ sameEffect s s' u u' ∧ s'.a = u'.a) ∧
  (∀ (w : CommandWord) (n : Nat) (s u : State), s.fault = false → u.fault = false → decode w = .ok (.mask n) →
    ∃ v, issue w s = .next { s with r := v } ∧ issue w u = .next { u with r := v })

/-! ## Buffers as bits and as numbers -/

/-- 20 R30: array bit index `i` is position `7 - (i mod 8)` of element `i div 8`. -/
def Obligations.BitIndexIsBigEndian : Prop :=
  ∀ (m : Memory) (i : Nat), m.bit i = (m.elem (i / 8)).getLsbD (7 - i % 8)

/-- 20 R31: the buffer as a number is the sum of its elements times `256 ^ (LEN-1-i)`, fits `TB` bits, and bit index `i` has
weight `2 ^ (TB-1-i)` in it. -/
def Obligations.BufferValueIsBigEndian : Prop :=
  ∀ (m : Memory) (len : Nat), Memory.wf m len = true →
    m.val = ∑ i ∈ Finset.range len, (m.elem i).toNat * 256 ^ (len - 1 - i) ∧
    m.val < 2 ^ (8 * len) ∧
    ∀ i, i < 8 * len → m.bit i = m.val.testBit (8 * len - 1 - i)

/-- 43 R100, 44 R111: for `n mod 8 ≠ 0`, the suffix mask has ones exactly at positions `7 - (n mod 8)` down to 0, its
subtraction does not wrap, and the covered mask has ones exactly at the positions above. -/
def Obligations.BoundaryMasksSplitTheElementAtTheIndex : Prop :=
  ∀ n, n % 8 ≠ 0 →
    2 ≤ (maskOf (n - 1)).toNat ∧ (suffixMask n).toNat = (maskOf (n - 1)).toNat - 1 ∧
    ∀ k, k < 8 →
      (suffixMask n).getLsbD k = decide (k ≤ 7 - n % 8) ∧ (coveredMask n).getLsbD k = decide (8 - n % 8 ≤ k)

/-! ## Bit accessors -/

/-- 40 R71: `mask` leaves in `R` the selector of position `7 - (N mod 8)`, for every `N`, and never faults. -/
def Obligations.MaskComputesTheSelector : Prop :=
  encodesAs .mask 0x0000#16 ∧
  ∀ (s : State) (n : Nat), ∃ v, exec (.mask n) s = .next { s with r := v } ∧
    v = 1#8 <<< (7 - n % 8) ∧ ∀ k, k < 8 → v.getLsbD k = decide (k = 7 - n % 8)

/-- 40 R72: `get` leaves bit `N` of `A` in `T`; `N >= TB` faults INDEX_RANGE. -/
def Obligations.GetReadsTheIndexedBit : Prop :=
  encodesAs .get 0x1000#16 ∧
  (∀ (s : State) (n : Nat), n < s.tb → exec (.get n) s = .next { s with t := s.a.bit n }) ∧
  (∀ (s : State) (n : Nat), s.tb ≤ n → faultsWith 2#2 (.get n) s)

/-- 40 R73: `set` makes bit `N` of `A` equal to `BIT` and changes no other bit; `N >= TB` faults INDEX_RANGE. -/
def Obligations.SetStoresTheBit : Prop :=
  (∀ n b, n < 256 →
    encode (.set n b) = 0x2000#16 ||| (if b = true then 0x0100#16 else 0#16) ||| BitVec.ofNat 16 n) ∧
  (∀ b, storesBit (fun n => .set n b) fun _ _ => b) ∧
  (∀ (s : State) (n : Nat) (b : Bool), s.tb ≤ n → faultsWith 2#2 (.set n b) s)

/-- 40 R74: `on` makes bit `N` of `A` 1 and changes no other bit; `N >= TB` faults INDEX_RANGE. -/
def Obligations.OnStoresOne : Prop :=
  encodesAs .on 0x3000#16 ∧ (storesBit .on fun _ _ => true) ∧
  (∀ (s : State) (n : Nat), s.tb ≤ n → faultsWith 2#2 (.on n) s)

/-- 40 R75: `off` makes bit `N` of `A` 0 and changes no other bit; `N >= TB` faults INDEX_RANGE. -/
def Obligations.OffStoresZero : Prop :=
  encodesAs .off 0x4000#16 ∧ (storesBit .off fun _ _ => false) ∧
  (∀ (s : State) (n : Nat), s.tb ≤ n → faultsWith 2#2 (.off n) s)

/-- 40 R76: `flip` inverts bit `N` of `A` and changes no other bit; twice, it restores `A`; `N >= TB` faults INDEX_RANGE. -/
def Obligations.FlipInvertsTheBit : Prop :=
  encodesAs .flip 0x5000#16 ∧ (storesBit .flip fun s n => !s.a.bit n) ∧
  (∀ (s : State) (n : Nat), n < s.tb → s.fault = false → n < 256 →
    runMoves [.issue (encode (.flip n)), .issue (encode (.flip n))] s = .next s) ∧
  (∀ (s : State) (n : Nat), s.tb ≤ n → faultsWith 2#2 (.flip n) s)

/-- 40 R77: after `set i, b`, `get i` writes `T = b`, and every bit at another index is as before the `set`. -/
def Obligations.GetAfterSetReturnsTheBit : Prop :=
  ∀ (s : State) (i : Nat) (b : Bool), s.wf = true → s.fault = false → i < s.tb →
    ∃ m, runMoves [.issue (encode (.set i b)), .issue (encode (.get i))] s = .next { s with a := m, t := b } ∧
      ∀ j, j < s.tb → j ≠ i → m.bit j = s.a.bit j

/-- 40 R78: the relations among the accessors: (a) `on`, `off` are `set` 1, `set` 0; (b) `flip` is `set` of the complement;
(c) at most bit `i` changes; (d) what `get` answers after each; (e) `get` as a shift and a mask. -/
def Obligations.BitAccessorsRelateAsStated : Prop :=
  ∀ (s : State) (i : Nat), s.wf = true → s.fault = false → i < s.tb →
    exec (.on i) s = exec (.set i true) s ∧ exec (.off i) s = exec (.set i false) s ∧
    exec (.flip i) s = exec (.set i (!s.a.bit i)) s ∧
    (∀ c ∈ [Instr.set i true, Instr.set i false, Instr.on i, Instr.off i, Instr.flip i],
      ∃ s', exec c s = .next s' ∧ ∀ j, j < s.tb → j ≠ i → s'.a.bit j = s.a.bit j) ∧
    (∃ s', runMoves [.issue (encode (.on i)), .issue (encode (.get i))] s = .next s' ∧ s'.t = true) ∧
    (∃ s', runMoves [.issue (encode (.off i)), .issue (encode (.get i))] s = .next s' ∧ s'.t = false) ∧
    (∃ s', runMoves [.issue (encode (.flip i)), .issue (encode (.get i))] s = .next s' ∧ s'.t = !s.a.bit i) ∧
    exec (.get i) s = .next { s with t := decide (((s.a.elem (i / 8) >>> (7 - i % 8)) &&& 1#8) = 1#8) }

/-! ## Increment with prefix guard -/

/-- 41 R81: the algorithm of `inc`: `A` plus 1 modulo `2 ^ TB`; for `N > 0`, if that changed the guard bit, the guard bit alone
is inverted back and the report is 1, otherwise the report is 0; for `N = 0` the report is the carry out of element 0; `N > TB`
faults LENGTH_RANGE. -/
def Obligations.IncAddsOneAndRestoresTheGuard : Prop :=
  (∀ (s : State) (n : Nat), s.wf = true → n ≤ s.tb →
    ∃ m1 m t, exec (.inc n) s = .next { s with a := m, t := t } ∧
      Memory.wf m1 s.cfg.len = true ∧ m1.val = (s.a.val + 1) % 2 ^ s.tb ∧ Memory.wf m s.cfg.len = true ∧
      (n = 0 → m = m1 ∧ (t = true ↔ s.a.val = 2 ^ s.tb - 1)) ∧
      (0 < n → (t = true ↔ m1.bit (n - 1) ≠ s.a.bit (n - 1)) ∧ m.bit (n - 1) = s.a.bit (n - 1) ∧
        ∀ j, j < s.tb → j ≠ n - 1 → m.bit j = m1.bit j)) ∧
  (∀ (s : State) (n : Nat), s.tb < n → faultsWith 3#2 (.inc n) s)

/-- 41 R83: the closed form of `inc N`, with `V = val(A)` and the bits `0 .. N-2` read as the number
`val(A) div 2 ^ (TB - (N-1))`. That those bits are incremented on an overflow with guard bit 1 is the spec's decision D19
(90 C1, log entry 10). -/
def Obligations.IncClosedForm : Prop :=
  ∀ (s : State) (n : Nat), s.wf = true → n ≤ s.tb →
    ∃ m t, exec (.inc n) s = .next { s with a := m, t := t } ∧
      (t = true ↔ suffixIs s.a s.tb n true) ∧
      (t = false → m.val = s.a.val + 1 ∧ sameBelow m s.a n) ∧
      (t = true → n = 0 → suffixIs m s.tb 0 false) ∧
      (t = true → 0 < n →
        suffixIs m s.tb n false ∧ m.bit (n - 1) = s.a.bit (n - 1) ∧
        m.val / 2 ^ (s.tb - (n - 1)) =
          if s.a.bit (n - 1) = true then (s.a.val / 2 ^ (s.tb - (n - 1)) + 1) % 2 ^ (n - 1)
          else s.a.val / 2 ^ (s.tb - (n - 1)))

/-- 41 R80: `inc` is encoded as OP 6, completes for every `N <= TB` writing `A` and `T` only, and `N > TB` faults
LENGTH_RANGE before anything is written. -/
def Obligations.IncEncodingAndRange : Prop :=
  encodesAs .inc 0x6000#16 ∧
  (∀ (s : State) (n : Nat), n ≤ s.tb → ∃ m t, exec (.inc n) s = .next { s with a := m, t := t }) ∧
  (∀ (s : State) (n : Nat), s.tb < n → faultsWith 3#2 (.inc n) s)

/-- 41 R85: `2 ^ TB` consecutive `inc 0` commands return `A` to its starting value, and exactly one of them writes `T = 1`:
number `2 ^ TB - V`. -/
def Obligations.IncWrapsAroundOncePerCycle : Prop :=
  ∀ s : State, s.wf = true → s.fault = false →
    (∀ k, 0 < k → k ≤ 2 ^ s.tb →
      ∃ m t, runMoves (incZeroTimes k) s = .next { s with a := m, t := t } ∧
        m.val = (s.a.val + k) % 2 ^ s.tb ∧ (t = true ↔ k = 2 ^ s.tb - s.a.val)) ∧
    (∃ t, runMoves (incZeroTimes (2 ^ s.tb)) s = .next { s with t := t })

/-! ## Shared prefix length -/

/-- 42 R90: `shared_prefix_len N` leaves in `R` the smaller of `N` and the lowest bit index at which `A` and `B` differ;
exchanging the buffers gives the same result; `N > TB` faults LENGTH_RANGE. -/
def Obligations.SharedPrefixLenIsTheFirstDifference : Prop :=
  encodesAs .sharedPrefixLen 0x7000#16 ∧
  (∀ (s : State) (n : Nat), s.wf = true → n ≤ s.tb →
    ∃ v : Byte, exec (.sharedPrefixLen n) s = .next { s with r := v } ∧ v.toNat ≤ n ∧
      sameBelow s.a s.b v.toNat ∧ (v.toNat < n → s.a.bit v.toNat ≠ s.b.bit v.toNat) ∧
      exec (.sharedPrefixLen n) { s with a := s.b, b := s.a } = .next { s with a := s.b, b := s.a, r := v }) ∧
  (∀ (s : State) (n : Nat), s.tb < n → faultsWith 3#2 (.sharedPrefixLen n) s)

/-- 42 R91: `clz8 x = 7 - k` for the largest `k` with `x[k] = 1`; hence `i * 8 + clz8 (A[i] ^ B[i])` is the lowest bit index
in element `i` at which the buffers differ. -/
def Obligations.LeadingZeroCountFindsTheHighestBit : Prop :=
  (∀ x : Byte, x ≠ 0#8 → ∃ k, k < 8 ∧ clz8 x = 7 - k ∧ x.getLsbD k = true ∧ ∀ j, k < j → x.getLsbD j = false) ∧
  (∀ (a b : Memory) (i : Nat), a.elem i ≠ b.elem i →
    let d := i * 8 + clz8 (a.elem i ^^^ b.elem i)
    d < i * 8 + 8 ∧ a.bit d ≠ b.bit d ∧ ∀ j, i * 8 ≤ j → j < d → a.bit j = b.bit j)

/-- 42 R92: equal buffers give `R = N`; always `R <= N`; `N = 0` gives 0. And 42 R94 (b), (c), which the spec itself derives:
`R = N` exactly when `contains N` answers 1; the result for a smaller `N` is the result for a larger one, clipped. -/
def Obligations.SharedPrefixLenLaws : Prop :=
  ∀ (s : State) (n1 n2 : Nat), s.wf = true → n1 ≤ n2 → n2 ≤ s.tb →
    ∃ v1 v2 : Byte, exec (.sharedPrefixLen n1) s = .next { s with r := v1 } ∧
      exec (.sharedPrefixLen n2) s = .next { s with r := v2 } ∧
      v1.toNat = min v2.toNat n1 ∧ v2.toNat ≤ n2 ∧ (s.a = s.b → v2.toNat = n2) ∧ (n1 = 0 → v1 = 0#8) ∧
      ∃ t, exec (.contains n2) s = .next { s with t := t } ∧ (t = true ↔ v2.toNat = n2)

/-! ## Range fill -/

/-- 43 R102: `zeroesfrom N` clears every bit of `A` at index `>= N` and changes no other bit; elements before `N div 8` are not
touched; `N = TB` changes nothing; a second `zeroesfrom N` changes nothing; `N > TB` faults LENGTH_RANGE. -/
def Obligations.ZeroesfromClearsTheSuffix : Prop :=
  encodesAs .zeroesfrom 0x8000#16 ∧
  (∀ (s : State) (n : Nat), s.wf = true → n ≤ s.tb →
    ∃ m, exec (.zeroesfrom n) s = .next { s with a := m } ∧ Memory.wf m s.cfg.len = true ∧
      suffixIs m s.tb n false ∧ sameBelow m s.a n ∧ (∀ i, i < elemOf n → m.elem i = s.a.elem i) ∧
      (n = s.tb → m = s.a) ∧ exec (.zeroesfrom n) { s with a := m } = .next { s with a := m }) ∧
  (∀ (s : State) (n : Nat), s.tb < n → faultsWith 3#2 (.zeroesfrom n) s)

/-- 43 R103: `onesfrom N` sets every bit of `A` at index `>= N` and changes no other bit; elements before `N div 8` are not
touched; `N = TB` changes nothing; a second `onesfrom N` changes nothing; `N > TB` faults LENGTH_RANGE. -/
def Obligations.OnesfromSetsTheSuffix : Prop :=
  encodesAs .onesfrom 0x9000#16 ∧
  (∀ (s : State) (n : Nat), s.wf = true → n ≤ s.tb →
    ∃ m, exec (.onesfrom n) s = .next { s with a := m } ∧ Memory.wf m s.cfg.len = true ∧
      suffixIs m s.tb n true ∧ sameBelow m s.a n ∧ (∀ i, i < elemOf n → m.elem i = s.a.elem i) ∧
      (n = s.tb → m = s.a) ∧ exec (.onesfrom n) { s with a := m } = .next { s with a := m }) ∧
  (∀ (s : State) (n : Nat), s.tb < n → faultsWith 3#2 (.onesfrom n) s)

/-- 43 R104: `is_zeroesfrom N` leaves in `T` whether every bit of `A` at index `>= N` is 0, which is whether `zeroesfrom N` would
leave the state as it is; `N > TB` faults LENGTH_RANGE. -/
def Obligations.IsZeroesfromTestsTheSuffix : Prop :=
  encodesAs .isZeroesfrom 0xA000#16 ∧
  (∀ (s : State) (n : Nat), s.wf = true → n ≤ s.tb →
    ∃ t, exec (.isZeroesfrom n) s = .next { s with t := t } ∧ (t = true ↔ suffixIs s.a s.tb n false) ∧
      (t = true ↔ exec (.zeroesfrom n) s = .next s)) ∧
  (∀ (s : State) (n : Nat), s.tb < n → faultsWith 3#2 (.isZeroesfrom n) s)

/-- 43 R105: `is_onesfrom N` leaves in `T` whether every bit of `A` at index `>= N` is 1, which is whether `onesfrom N` would leave
the state as it is, and the report `inc N` would make; `N > TB` faults LENGTH_RANGE. -/
def Obligations.IsOnesfromTestsTheSuffix : Prop :=
  encodesAs .isOnesfrom 0xB000#16 ∧
  (∀ (s : State) (n : Nat), s.wf = true → n ≤ s.tb →
    ∃ t, exec (.isOnesfrom n) s = .next { s with t := t } ∧ (t = true ↔ suffixIs s.a s.tb n true) ∧
      (t = true ↔ exec (.onesfrom n) s = .next s) ∧ ∃ m, exec (.inc n) s = .next { s with a := m, t := t }) ∧
  (∀ (s : State) (n : Nat), s.tb < n → faultsWith 3#2 (.isOnesfrom n) s)

/-- 43 R106: at `N = TB` the fills change nothing and the predicates answer 1. -/
def Obligations.AtFullLengthFillsDoNothing : Prop :=
  ∀ s : State, s.wf = true →
    exec (.zeroesfrom s.tb) s = .next s ∧ exec (.onesfrom s.tb) s = .next s ∧
    exec (.isZeroesfrom s.tb) s = .next { s with t := true } ∧ exec (.isOnesfrom s.tb) s = .next { s with t := true }

/-- 43 R107: `zeroesfrom N` and then `is_zeroesfrom N` ends with `T = 1`, and `is_zeroesfrom 0` writes 1 exactly for the
all-zero array. -/
def Obligations.ZeroesfromThenIsZeroesfrom : Prop :=
  ∀ (s : State) (n : Nat), s.wf = true → s.fault = false → n ≤ s.tb →
    (∃ m, runMoves [.issue (encode (.zeroesfrom n)), .issue (encode (.isZeroesfrom n))] s =
      .next { s with a := m, t := true }) ∧
    ∃ t, exec (.isZeroesfrom 0) s = .next { s with t := t } ∧
      (t = true ↔ ∀ i, i < s.cfg.len → s.a.elem i = 0x00#8)

/-- 43 R108: (a) the dual for ones; (b) a predicate answers 1 exactly when the fill would change nothing; (c) the fills as
numbers; (d) the predicates are antitone in `N`; (e) a fill leaves the answer of `contains N` as it was. -/
def Obligations.RangeFillRelations : Prop :=
  ∀ (s : State) (n : Nat), s.wf = true → s.fault = false → n ≤ s.tb →
    (∃ m, runMoves [.issue (encode (.onesfrom n)), .issue (encode (.isOnesfrom n))] s =
      .next { s with a := m, t := true }) ∧
    (∃ t, exec (.isOnesfrom 0) s = .next { s with t := t } ∧
      (t = true ↔ ∀ i, i < s.cfg.len → s.a.elem i = 0xFF#8)) ∧
    (∃ mz mo tz tn,
      exec (.zeroesfrom n) s = .next { s with a := mz } ∧ exec (.onesfrom n) s = .next { s with a := mo } ∧
      exec (.isZeroesfrom n) s = .next { s with t := tz } ∧ exec (.isOnesfrom n) s = .next { s with t := tn } ∧
      (tz = true ↔ mz = s.a) ∧ (tn = true ↔ mo = s.a) ∧
      mz.val = s.a.val - s.a.val % 2 ^ (s.tb - n) ∧
      mo.val = s.a.val - s.a.val % 2 ^ (s.tb - n) + 2 ^ (s.tb - n) - 1 ∧
      (∀ n2, n ≤ n2 → n2 ≤ s.tb →
        ∃ tz2 tn2, exec (.isZeroesfrom n2) s = .next { s with t := tz2 } ∧
          exec (.isOnesfrom n2) s = .next { s with t := tn2 } ∧ (tz = true → tz2 = true) ∧ (tn = true → tn2 = true)) ∧
      ∃ t, exec (.contains n) s = .next { s with t := t } ∧
        exec (.contains n) { s with a := mz } = .next { s with a := mz, t := t } ∧
        exec (.contains n) { s with a := mo } = .next { s with a := mo, t := t })

/-! ## Containment -/

/-- 44 R110: `contains N` leaves in `T` whether `A` and `B` agree on the bit indices `0 .. N-1`; exchanging the buffers gives the
same answer; at `N = TB` it is the equality of the buffers; `N > TB` faults LENGTH_RANGE. -/
def Obligations.ContainsComparesTheLeadingBits : Prop :=
  encodesAs .contains 0xC000#16 ∧
  (∀ (s : State) (n : Nat), s.wf = true → n ≤ s.tb →
    ∃ t, exec (.contains n) s = .next { s with t := t } ∧ (t = true ↔ sameBelow s.a s.b n) ∧
      (n = s.tb → (t = true ↔ s.a = s.b)) ∧
      exec (.contains n) { s with a := s.b, b := s.a } = .next { s with a := s.b, b := s.a, t := t }) ∧
  (∀ (s : State) (n : Nat), s.tb < n → faultsWith 3#2 (.contains n) s)

/-- 44 R112: equal buffers contain each other at every `N`; an answer 1 holds for every smaller `N`. And 44 R113, which the
spec itself derives: the answer is `R = N` of `shared_prefix_len N`, and it is the equality of the leading `N` bits as numbers. -/
def Obligations.ContainmentLaws : Prop :=
  ∀ (s : State) (n n2 : Nat), s.wf = true → n2 ≤ n → n ≤ s.tb →
    ∃ t t2 v, exec (.contains n) s = .next { s with t := t } ∧ exec (.contains n2) s = .next { s with t := t2 } ∧
      exec (.sharedPrefixLen n) s = .next { s with r := v } ∧
      (s.a = s.b → t = true) ∧ (t = true → t2 = true) ∧ (t = true ↔ v.toNat = n) ∧
      (t = true ↔ s.a.val / 2 ^ (s.tb - n) = s.b.val / 2 ^ (s.tb - n))

/-! ## Runs -/

/-- 70 R148, 20 R40: running the machine step by step on a list of host moves is making the moves in order; once the list is
exhausted further steps change nothing (the model's choice, log entry 5). -/
def Obligations.RunIsTheMovesInOrder : Prop :=
  ∀ (moves : List Move) (s s' : State) (extra : Nat), runMoves moves s = .next s' →
    Host.Core.run Sys2Proof.core (moves.length + extra) { s with pending := moves } = .next { s' with pending := [] }

/-- 30 R62: the netmask sequence leaves ones at the indices below `p` and zeros from `p` on, whatever `A` held; and after the
common-supernet sequence only `R` has changed, to the shared prefix capped at both lengths: the buffers agree below it and, if
it is less than both lengths, differ at it; it is the smaller length exactly when the networks agree on that length (nested). -/
def Obligations.CollaboratorSequencesComputeTheirResults : Prop :=
  ∀ s : State, s.wf = true → s.fault = false →
    (∀ p, p ≤ s.tb →
      ∃ m, runMoves (issues (netmask p)) s = .next { s with a := m } ∧
        suffixIs m s.tb p false ∧ ∀ j, j < p → m.bit j = true) ∧
    (∀ pa pb, pa ≤ s.tb → pb ≤ s.tb →
      ∃ v : Byte, runMoves (issues (commonSupernet pa pb)) s = .next { s with r := v } ∧ v.toNat ≤ min pa pb ∧
        sameBelow s.a s.b v.toNat ∧ (v.toNat < min pa pb → s.a.bit v.toNat ≠ s.b.bit v.toNat) ∧
        (nested pa pb { s with r := v } = true ↔ sameBelow s.a s.b (min pa pb)))
end

