-- ==== Sys2Proof/Laws/State.lean ====
section
/-! SUPPORT. What each update of the state leaves in each field. -/

namespace Sys2Proof.Machine

/-! ## `setA` -/

@[simp] theorem State.setA_cfg (s : State) (m : Memory) : (s.setA m).cfg = s.cfg := rfl
@[simp] theorem State.setA_a (s : State) (m : Memory) : (s.setA m).a = m := rfl
@[simp] theorem State.setA_b (s : State) (m : Memory) : (s.setA m).b = s.b := rfl
@[simp] theorem State.setA_r (s : State) (m : Memory) : (s.setA m).r = s.r := rfl
@[simp] theorem State.setA_t (s : State) (m : Memory) : (s.setA m).t = s.t := rfl
@[simp] theorem State.setA_fault (s : State) (m : Memory) : (s.setA m).fault = s.fault := rfl
@[simp] theorem State.setA_fcause (s : State) (m : Memory) : (s.setA m).fcause = s.fcause := rfl
@[simp] theorem State.setA_resets (s : State) (m : Memory) : (s.setA m).resets = s.resets := rfl
@[simp] theorem State.setA_pending (s : State) (m : Memory) : (s.setA m).pending = s.pending := rfl
@[simp] theorem State.setA_replies (s : State) (m : Memory) : (s.setA m).replies = s.replies := rfl

/-! ## `setB` -/

@[simp] theorem State.setB_cfg (s : State) (m : Memory) : (s.setB m).cfg = s.cfg := rfl
@[simp] theorem State.setB_a (s : State) (m : Memory) : (s.setB m).a = s.a := rfl
@[simp] theorem State.setB_b (s : State) (m : Memory) : (s.setB m).b = m := rfl
@[simp] theorem State.setB_r (s : State) (m : Memory) : (s.setB m).r = s.r := rfl
@[simp] theorem State.setB_t (s : State) (m : Memory) : (s.setB m).t = s.t := rfl
@[simp] theorem State.setB_fault (s : State) (m : Memory) : (s.setB m).fault = s.fault := rfl
@[simp] theorem State.setB_fcause (s : State) (m : Memory) : (s.setB m).fcause = s.fcause := rfl
@[simp] theorem State.setB_resets (s : State) (m : Memory) : (s.setB m).resets = s.resets := rfl
@[simp] theorem State.setB_pending (s : State) (m : Memory) : (s.setB m).pending = s.pending := rfl
@[simp] theorem State.setB_replies (s : State) (m : Memory) : (s.setB m).replies = s.replies := rfl

/-! ## `setR` -/

@[simp] theorem State.setR_cfg (s : State) (v : Byte) : (s.setR v).cfg = s.cfg := rfl
@[simp] theorem State.setR_a (s : State) (v : Byte) : (s.setR v).a = s.a := rfl
@[simp] theorem State.setR_b (s : State) (v : Byte) : (s.setR v).b = s.b := rfl
@[simp] theorem State.setR_r (s : State) (v : Byte) : (s.setR v).r = v := rfl
@[simp] theorem State.setR_t (s : State) (v : Byte) : (s.setR v).t = s.t := rfl
@[simp] theorem State.setR_fault (s : State) (v : Byte) : (s.setR v).fault = s.fault := rfl
@[simp] theorem State.setR_fcause (s : State) (v : Byte) : (s.setR v).fcause = s.fcause := rfl
@[simp] theorem State.setR_resets (s : State) (v : Byte) : (s.setR v).resets = s.resets := rfl
@[simp] theorem State.setR_pending (s : State) (v : Byte) : (s.setR v).pending = s.pending := rfl
@[simp] theorem State.setR_replies (s : State) (v : Byte) : (s.setR v).replies = s.replies := rfl

/-! ## `setT` -/

@[simp] theorem State.setT_cfg (s : State) (v : Bool) : (s.setT v).cfg = s.cfg := rfl
@[simp] theorem State.setT_a (s : State) (v : Bool) : (s.setT v).a = s.a := rfl
@[simp] theorem State.setT_b (s : State) (v : Bool) : (s.setT v).b = s.b := rfl
@[simp] theorem State.setT_r (s : State) (v : Bool) : (s.setT v).r = s.r := rfl
@[simp] theorem State.setT_t (s : State) (v : Bool) : (s.setT v).t = v := rfl
@[simp] theorem State.setT_fault (s : State) (v : Bool) : (s.setT v).fault = s.fault := rfl
@[simp] theorem State.setT_fcause (s : State) (v : Bool) : (s.setT v).fcause = s.fcause := rfl
@[simp] theorem State.setT_resets (s : State) (v : Bool) : (s.setT v).resets = s.resets := rfl
@[simp] theorem State.setT_pending (s : State) (v : Bool) : (s.setT v).pending = s.pending := rfl
@[simp] theorem State.setT_replies (s : State) (v : Bool) : (s.setT v).replies = s.replies := rfl

/-! ## `answer` -/

@[simp] theorem State.answer_cfg (s : State) (v : Reply) : (s.answer v).cfg = s.cfg := rfl
@[simp] theorem State.answer_a (s : State) (v : Reply) : (s.answer v).a = s.a := rfl
@[simp] theorem State.answer_b (s : State) (v : Reply) : (s.answer v).b = s.b := rfl
@[simp] theorem State.answer_r (s : State) (v : Reply) : (s.answer v).r = s.r := rfl
@[simp] theorem State.answer_t (s : State) (v : Reply) : (s.answer v).t = s.t := rfl
@[simp] theorem State.answer_fault (s : State) (v : Reply) : (s.answer v).fault = s.fault := rfl
@[simp] theorem State.answer_fcause (s : State) (v : Reply) : (s.answer v).fcause = s.fcause := rfl
@[simp] theorem State.answer_resets (s : State) (v : Reply) : (s.answer v).resets = s.resets := rfl
@[simp] theorem State.answer_pending (s : State) (v : Reply) : (s.answer v).pending = s.pending := rfl
@[simp] theorem State.answer_replies (s : State) (v : Reply) : (s.answer v).replies = s.replies ++ [v] := rfl

/-! ## `withPending` -/

@[simp] theorem State.withPending_cfg (s : State) (l : List Move) : (s.withPending l).cfg = s.cfg := rfl
@[simp] theorem State.withPending_a (s : State) (l : List Move) : (s.withPending l).a = s.a := rfl
@[simp] theorem State.withPending_b (s : State) (l : List Move) : (s.withPending l).b = s.b := rfl
@[simp] theorem State.withPending_r (s : State) (l : List Move) : (s.withPending l).r = s.r := rfl
@[simp] theorem State.withPending_t (s : State) (l : List Move) : (s.withPending l).t = s.t := rfl
@[simp] theorem State.withPending_fault (s : State) (l : List Move) : (s.withPending l).fault = s.fault := rfl
@[simp] theorem State.withPending_fcause (s : State) (l : List Move) : (s.withPending l).fcause = s.fcause := rfl
@[simp] theorem State.withPending_resets (s : State) (l : List Move) : (s.withPending l).resets = s.resets := rfl
@[simp] theorem State.withPending_pending (s : State) (l : List Move) : (s.withPending l).pending = l := rfl
@[simp] theorem State.withPending_replies (s : State) (l : List Move) : (s.withPending l).replies = s.replies := rfl

/-! ## Fault entry -/

@[simp] theorem raiseFault_cfg (c : Cause) (s : State) : (raiseFault c s).cfg = s.cfg := rfl
@[simp] theorem raiseFault_a (c : Cause) (s : State) : (raiseFault c s).a = s.a := rfl
@[simp] theorem raiseFault_b (c : Cause) (s : State) : (raiseFault c s).b = s.b := rfl
@[simp] theorem raiseFault_r (c : Cause) (s : State) : (raiseFault c s).r = s.r := rfl
@[simp] theorem raiseFault_t (c : Cause) (s : State) : (raiseFault c s).t = s.t := rfl
@[simp] theorem raiseFault_fault (c : Cause) (s : State) : (raiseFault c s).fault = true := rfl
@[simp] theorem raiseFault_fcause (c : Cause) (s : State) : (raiseFault c s).fcause = c.code := rfl
@[simp] theorem raiseFault_resets (c : Cause) (s : State) : (raiseFault c s).resets = s.resets := rfl
@[simp] theorem raiseFault_pending (c : Cause) (s : State) : (raiseFault c s).pending = s.pending := rfl
@[simp] theorem raiseFault_replies (c : Cause) (s : State) : (raiseFault c s).replies = s.replies := rfl

/-! ## Reset -/

@[simp] theorem resetUnit_cfg (s : State) : (resetUnit s).cfg = s.cfg := rfl
@[simp] theorem resetUnit_a (s : State) : (resetUnit s).a = Memory.ofFn s.cfg.len (Config.freeElem (s.resets + 1) .A) := rfl
@[simp] theorem resetUnit_b (s : State) : (resetUnit s).b = Memory.ofFn s.cfg.len (Config.freeElem (s.resets + 1) .B) := rfl
@[simp] theorem resetUnit_r (s : State) : (resetUnit s).r = Config.freeR (s.resets + 1) := rfl
@[simp] theorem resetUnit_t (s : State) : (resetUnit s).t = Config.freeT (s.resets + 1) := rfl
@[simp] theorem resetUnit_fault (s : State) : (resetUnit s).fault = false := rfl
@[simp] theorem resetUnit_fcause (s : State) : (resetUnit s).fcause = 0#2 := rfl
@[simp] theorem resetUnit_resets (s : State) : (resetUnit s).resets = s.resets + 1 := rfl
@[simp] theorem resetUnit_pending (s : State) : (resetUnit s).pending = s.pending := rfl
@[simp] theorem resetUnit_replies (s : State) : (resetUnit s).replies = s.replies := rfl

@[simp] theorem State.resetOf_cfg (c : Config) : (State.resetOf c).cfg = c := rfl
@[simp] theorem State.resetOf_a (c : Config) : (State.resetOf c).a = Memory.ofFn c.len (Config.freeElem 0 .A) := rfl
@[simp] theorem State.resetOf_b (c : Config) : (State.resetOf c).b = Memory.ofFn c.len (Config.freeElem 0 .B) := rfl
@[simp] theorem State.resetOf_r (c : Config) : (State.resetOf c).r = Config.freeR 0 := rfl
@[simp] theorem State.resetOf_t (c : Config) : (State.resetOf c).t = Config.freeT 0 := rfl
@[simp] theorem State.resetOf_fault (c : Config) : (State.resetOf c).fault = false := rfl
@[simp] theorem State.resetOf_fcause (c : Config) : (State.resetOf c).fcause = 0#2 := rfl
@[simp] theorem State.resetOf_resets (c : Config) : (State.resetOf c).resets = 0 := rfl
@[simp] theorem State.resetOf_pending (c : Config) : (State.resetOf c).pending = [] := rfl
@[simp] theorem State.resetOf_replies (c : Config) : (State.resetOf c).replies = [] := rfl

@[simp] theorem State.buffer_A (s : State) : s.buffer .A = s.a := rfl
@[simp] theorem State.buffer_B (s : State) : s.buffer .B = s.b := rfl

/-- `TB` is eight times the number of elements (00 R9). -/
theorem State.tb_eq (s : State) : s.tb = s.cfg.len * 8 := rfl

end Sys2Proof.Machine
end

