-- ==== Sys2Proof/Laws/Memory.lean ====
section
/-! SUPPORT. The laws of buffers: reading after writing, and that every operation keeps the canonical form. -/

namespace Sys2Proof.Machine

/-! ## Updating cells by index -/

/-- Every buffer operation that visits elements in place is this one: each cell keeps its index. -/
theorem lookup_map_cells (f : Nat → Byte → Byte) (m : Memory) (i : Nat) :
    (m.map fun c => (c.1, f c.1 c.2)).lookup i = (m.lookup i).map (f i) := by
  induction m with
  | nil => rfl
  | cons c rest ih =>
    obtain ⟨k, v⟩ := c
    by_cases h : i = k
    · subst h; simp [List.lookup]
    · have hb : (i == k) = false := by simpa using h
      simp [List.lookup, hb, ih]

theorem map_fst_map_cells (f : Nat → Byte → Byte) (m : Memory) :
    (m.map fun c => (c.1, f c.1 c.2)).map Prod.fst = m.map Prod.fst := by
  simp [Function.comp_def]

theorem Memory.wf_map_cells (f : Nat → Byte → Byte) (m : Memory) (len : Nat) :
    Memory.wf (m.map fun c => (c.1, f c.1 c.2)) len = Memory.wf m len := by
  simp only [Memory.wf, map_fst_map_cells]

theorem Memory.modify_eq_map_cells (m : Memory) (i : Nat) (f : Byte → Byte) :
    m.modify i f = m.map fun c => (c.1, if c.1 = i then f c.2 else c.2) := by
  unfold Memory.modify
  apply List.map_congr_left
  intro c _
  by_cases h : c.1 = i <;> simp [h]

/-! ## Which elements a well-formed buffer lists -/

theorem Memory.wf_iff (m : Memory) (len : Nat) : Memory.wf m len = true ↔ m.map Prod.fst = List.range len := by
  simp [Memory.wf]

theorem lookup_isSome_iff (m : Memory) (i : Nat) : (m.lookup i).isSome ↔ i ∈ m.map Prod.fst := by
  induction m with
  | nil => simp [List.lookup]
  | cons c rest ih =>
    obtain ⟨k, v⟩ := c
    by_cases h : i = k
    · subst h; simp [List.lookup]
    · have hb : (i == k) = false := by simpa using h
      simp only [List.lookup, hb, List.map_cons, List.mem_cons, h, false_or]
      exact ih

theorem Memory.lookup_of_wf {m : Memory} {len i : Nat} (h : Memory.wf m len = true) (hi : i < len) :
    m.lookup i = some (m.elem i) := by
  have hs : (m.lookup i).isSome := by
    rw [lookup_isSome_iff, (Memory.wf_iff m len).1 h]; simpa using hi
  obtain ⟨v, hv⟩ := Option.isSome_iff_exists.1 hs
  simp [Memory.elem, hv]

theorem Memory.length_of_wf {m : Memory} {len : Nat} (h : Memory.wf m len = true) : m.length = len := by
  have := congrArg List.length ((Memory.wf_iff m len).1 h)
  simpa using this

/-- An element of an in-place update, in a buffer that lists it. -/
theorem Memory.elem_map_cells {m : Memory} {len i : Nat} (f : Nat → Byte → Byte) (h : Memory.wf m len = true)
    (hi : i < len) : Memory.elem (m.map fun c => (c.1, f c.1 c.2)) i = f i (m.elem i) := by
  rw [Memory.elem, lookup_map_cells, Memory.lookup_of_wf h hi]; rfl

/-- In a list of cells with no index twice, looking a cell's index up finds the cell. -/
theorem lookup_of_mem {l : Memory} (hn : (l.map Prod.fst).Nodup) {c : Host.Cell} (hc : c ∈ l) :
    l.lookup c.1 = some c.2 := by
  induction l with
  | nil => simp at hc
  | cons d l ih =>
    simp only [List.map_cons, List.nodup_cons] at hn
    rcases List.mem_cons.1 hc with rfl | hc
    · simp [List.lookup]
    · have hne : c.1 ≠ d.1 := fun e => hn.1 (e ▸ List.mem_map_of_mem hc)
      have hb : (c.1 == d.1) = false := by simpa using hne
      simp only [List.lookup, hb]
      exact ih hn.2 hc

/-- Cell number `i` of a well-formed buffer is element `i`. -/
theorem Memory.getElem_of_wf {m : Memory} {len i : Nat} (h : Memory.wf m len = true) (hi : i < m.length) :
    m[i] = (i, m.elem i) := by
  have hk := (Memory.wf_iff m len).1 h
  have hlen := Memory.length_of_wf h
  have hfst : (m[i]).1 = i := by
    have := congrArg (fun l => l[i]?) hk
    simpa [List.getElem?_map, List.getElem?_eq_getElem hi, List.getElem?_range (by omega : i < len)] using this
  have hl := lookup_of_mem (by rw [hk]; exact List.nodup_range) (List.getElem_mem hi)
  rw [hfst] at hl
  exact Prod.ext hfst (by simp [Memory.elem, hl])

/-- A well-formed buffer is the list of its elements. -/
theorem Memory.eq_ofFn_of_wf {m : Memory} {len : Nat} (h : Memory.wf m len = true) :
    m = Memory.ofFn len m.elem := by
  apply List.ext_getElem
  · simp [Memory.ofFn, Memory.length_of_wf h]
  · intro i h1 h2
    rw [Memory.getElem_of_wf h h1]; simp [Memory.ofFn]

/-- A property of every cell of a well-formed buffer is a property of every element. -/
theorem Memory.all_of_wf {m : Memory} {len : Nat} (p : Nat → Byte → Bool) (h : Memory.wf m len = true) :
    (m.all fun c => p c.1 c.2) = true ↔ ∀ i < len, p i (m.elem i) = true := by
  rw [Memory.eq_ofFn_of_wf h]
  simp only [Memory.ofFn, List.all_map, List.all_eq_true, List.mem_range, Function.comp_apply]
  constructor
  · intro hp i hi
    have := hp i hi
    rwa [← Memory.ofFn, ← Memory.eq_ofFn_of_wf h]
  · intro hp i hi
    have := hp i hi
    rwa [← Memory.ofFn, ← Memory.eq_ofFn_of_wf h] at this

/-- Two well-formed buffers with the same elements are the same data. -/
theorem Memory.ext_of_wf {m m' : Memory} {len : Nat} (h : Memory.wf m len = true) (h' : Memory.wf m' len = true)
    (he : ∀ i < len, m.elem i = m'.elem i) : m = m' := by
  rw [Memory.eq_ofFn_of_wf h, Memory.eq_ofFn_of_wf h']
  apply List.map_congr_left
  intro i hi
  rw [he i (by simpa using hi)]

/-! ## The operations keep the canonical form -/

theorem Memory.wf_ofFn (len : Nat) (f : Nat → Byte) : Memory.wf (Memory.ofFn len f) len = true := by
  simp [Memory.wf_iff, Memory.ofFn, Function.comp_def]

theorem Memory.wf_modify (m : Memory) (i : Nat) (f : Byte → Byte) (len : Nat) :
    Memory.wf (m.modify i f) len = Memory.wf m len := by
  rw [Memory.modify_eq_map_cells]; exact Memory.wf_map_cells (fun k v => if k = i then f v else v) m len

theorem Memory.wf_write (m : Memory) (i : Nat) (v : Byte) (len : Nat) :
    Memory.wf (m.write i v) len = Memory.wf m len := Memory.wf_modify m i _ len

theorem Memory.map_fst_addOne (m : Memory) : (m.addOne).1.map Prod.fst = m.map Prod.fst := by
  induction m with
  | nil => rfl
  | cons c rest ih =>
    simp only [Memory.addOne]
    split
    · split <;> simp [ih]
    · simp [ih]

theorem Memory.wf_addOne (m : Memory) (len : Nat) : Memory.wf (m.addOne).1 len = Memory.wf m len := by
  simp only [Memory.wf, Memory.map_fst_addOne]

/-! ## Reading after writing -/

theorem Memory.elem_ofFn (len : Nat) (f : Nat → Byte) {i : Nat} (hi : i < len) : (Memory.ofFn len f).elem i = f i := by
  have h := Memory.lookup_of_wf (Memory.wf_ofFn len f) hi
  have hw : Memory.elem ((Memory.ofFn len fun _ => 0#8).map fun c => (c.1, f c.1)) i = f i :=
    Memory.elem_map_cells (fun k _ => f k) (Memory.wf_ofFn len fun _ => 0#8) hi
  rw [← hw]; simp [Memory.ofFn, Function.comp_def]

theorem Memory.elem_modify_same {m : Memory} {len i : Nat} (f : Byte → Byte) (h : Memory.wf m len = true)
    (hi : i < len) : (m.modify i f).elem i = f (m.elem i) := by
  rw [Memory.modify_eq_map_cells, Memory.elem_map_cells (fun k v => if k = i then f v else v) h hi]; simp

theorem Memory.elem_modify_other (m : Memory) {i j : Nat} (f : Byte → Byte) (hij : j ≠ i) :
    (m.modify i f).elem j = m.elem j := by
  rw [Memory.modify_eq_map_cells, Memory.elem, Memory.elem,
    lookup_map_cells (fun k v => if k = i then f v else v) m j]
  cases m.lookup j <;> simp [hij]

theorem Memory.elem_write_same {m : Memory} {len i : Nat} (v : Byte) (h : Memory.wf m len = true) (hi : i < len) :
    (m.write i v).elem i = v := Memory.elem_modify_same _ h hi

theorem Memory.elem_write_other (m : Memory) {i j : Nat} (v : Byte) (hij : j ≠ i) :
    (m.write i v).elem j = m.elem j := Memory.elem_modify_other m _ hij

end Sys2Proof.Machine
end

