-- ==== Sys2Proof/Laws/Bits.lean ====
section
/-! SUPPORT. The operations over buffers as functions of the array bits. -/

namespace Sys2Proof.Machine

open Sys2Proof

/-- A property of every number an operand field can hold is a property of every byte. -/
theorem all_bytes {p : Nat → Prop} (h : ∀ x : Byte, p x.toNat) (n : Nat) (hn : n < 256) : p n := by
  have := h (BitVec.ofNat 8 n)
  rwa [BitVec.toNat_ofNat, Nat.mod_eq_of_lt hn] at this

theorem getLsbD_maskOf (n k : Nat) : (maskOf n).getLsbD k = decide (k = posOf n) := by
  have h7 : posOf n ≤ 7 := by unfold posOf; omega
  unfold maskOf
  generalize posOf n = p at h7
  by_cases hk : k < 8
  · interval_cases p <;> interval_cases k <;> rfl
  · rw [BitVec.getLsbD_of_ge _ _ (by omega)]
    have : k ≠ p := by omega
    simp [this]

theorem maskOf_congr {n n' : Nat} (h : n % 8 = n' % 8) : maskOf n = maskOf n' := by
  simp [maskOf, posOf, h]

theorem bitTest_eq_bit (m : Memory) (n : Nat) : bitTest m n = m.bit n := by
  unfold bitTest Memory.bit
  generalize m.elem (elemOf n) = v
  have h7 : posOf n ≤ 7 := by unfold posOf; omega
  unfold maskOf
  generalize posOf n = p at h7
  revert v
  interval_cases p <;> decide

theorem posOf_inj {i j : Nat} (he : elemOf i = elemOf j) (hp : posOf i = posOf j) : i = j := by
  unfold elemOf at he; unfold posOf at hp; omega

theorem suffixMask_congr {n : Nat} (h : n % 8 ≠ 0) : suffixMask n = suffixMask (n % 8) := by
  unfold suffixMask
  rw [maskOf_congr (n := n - 1) (n' := n % 8 - 1) (by omega)]

theorem getLsbD_suffixMask {n : Nat} (h : n % 8 ≠ 0) {k : Nat} (hk : k < 8) :
    (suffixMask n).getLsbD k = decide (k ≤ posOf n) := by
  rw [suffixMask_congr h]
  have hp : posOf n = posOf (n % 8) := by simp [posOf]
  rw [hp]
  have h1 : n % 8 < 8 := Nat.mod_lt _ (by decide)
  generalize n % 8 = r at *
  have h0 : 1 ≤ r := by omega
  interval_cases r <;> interval_cases k <;> rfl

/-- An update of the element of bit `n` that touches only the position of bit `n`. -/
theorem bit_modify {m : Memory} {len : Nat} (h : Memory.wf m len = true) {n : Nat} (hn : n < len * 8) (f : Byte → Byte)
    (v : Bool) (hsame : (f (m.elem (elemOf n))).getLsbD (posOf n) = v)
    (hother : ∀ k, k < 8 → k ≠ posOf n → (f (m.elem (elemOf n))).getLsbD k = (m.elem (elemOf n)).getLsbD k) (j : Nat) :
    (m.modify (elemOf n) f).bit j = if j = n then v else m.bit j := by
  have he : elemOf n < len := by unfold elemOf; omega
  unfold Memory.bit
  by_cases hej : elemOf j = elemOf n
  · rw [hej, Memory.elem_modify_same f h he]
    by_cases hj : j = n
    · subst hj; simp [hsame]
    · have : posOf j ≠ posOf n := fun hp => hj (posOf_inj hej hp)
      simp only [hj, if_false]
      exact hother _ (by unfold posOf; omega) this
  · rw [Memory.elem_modify_other m f hej]
    have : j ≠ n := fun e => hej (e ▸ rfl)
    simp [this]

theorem bit_turnBitOn {m : Memory} {len : Nat} (h : Memory.wf m len = true) {n : Nat} (hn : n < len * 8) (j : Nat) :
    (turnBitOn m n).bit j = if j = n then true else m.bit j := by
  apply bit_modify h hn
  · simp [getLsbD_maskOf]
  · intro k hk hkn; simp [getLsbD_maskOf, hkn]

theorem bit_turnBitOff {m : Memory} {len : Nat} (h : Memory.wf m len = true) {n : Nat} (hn : n < len * 8) (j : Nat) :
    (turnBitOff m n).bit j = if j = n then false else m.bit j := by
  apply bit_modify h hn
  · simp [getLsbD_maskOf]
  · intro k hk hkn
    simp only [BitVec.getLsbD_and, BitVec.getLsbD_not, getLsbD_maskOf, hk, hkn]; simp

theorem bit_invertBit {m : Memory} {len : Nat} (h : Memory.wf m len = true) {n : Nat} (hn : n < len * 8) (j : Nat) :
    (invertBit m n).bit j = if j = n then !m.bit n else m.bit j := by
  apply bit_modify h hn
  · simp [getLsbD_maskOf, Memory.bit]
  · intro k hk hkn; simp [getLsbD_maskOf, hkn]

theorem bit_map_cells {m : Memory} {len : Nat} (f : Nat → Byte → Byte) (h : Memory.wf m len = true) {j : Nat} (hj : j < len * 8) :
    Memory.bit (m.map fun c => (c.1, f c.1 c.2)) j = (f (elemOf j) (m.elem (elemOf j))).getLsbD (posOf j) := by
  unfold Memory.bit
  rw [Memory.elem_map_cells f h (by unfold elemOf; omega)]

theorem bit_zeroFrom {m : Memory} {len : Nat} (h : Memory.wf m len = true) (n : Nat) {j : Nat} (hj : j < len * 8) :
    (zeroFrom m n).bit j = if n ≤ j then false else m.bit j := by
  rw [zeroFrom, bit_map_cells (zeroElem n) h hj]
  unfold zeroElem Memory.bit
  have hp : posOf j < 8 := by unfold posOf; omega
  split
  · rename_i hlt
    have : ¬ n ≤ j := by unfold elemOf at hlt; omega
    simp [this]
  · split
    · rename_i hlt hb
      simp only [BitVec.getLsbD_and, BitVec.getLsbD_not, hp, getLsbD_suffixMask hb.2 hp, decide_true, Bool.true_and]
      have : posOf j ≤ posOf n ↔ n ≤ j := by unfold posOf; have := hb.1; unfold elemOf at this; omega
      by_cases hnj : n ≤ j <;> simp [this, hnj]
    · rename_i hlt hb
      have : n ≤ j := by
        unfold elemOf at hlt hb; omega
      simp [this]

theorem bit_onesFrom {m : Memory} {len : Nat} (h : Memory.wf m len = true) (n : Nat) {j : Nat} (hj : j < len * 8) :
    (onesFrom m n).bit j = if n ≤ j then true else m.bit j := by
  rw [onesFrom, bit_map_cells (onesElem n) h hj]
  unfold onesElem Memory.bit
  have hp : posOf j < 8 := by unfold posOf; omega
  split
  · rename_i hlt
    have : ¬ n ≤ j := by unfold elemOf at hlt; omega
    simp [this]
  · split
    · rename_i hlt hb
      simp only [BitVec.getLsbD_or, getLsbD_suffixMask hb.2 hp]
      have : posOf j ≤ posOf n ↔ n ≤ j := by unfold posOf; have := hb.1; unfold elemOf at this; omega
      by_cases hnj : n ≤ j <;> simp [this, hnj]
    · rename_i hlt hb
      have : n ≤ j := by
        unfold elemOf at hlt hb; omega
      have h255 : ∀ k, k < 8 → (0xFF#8).getLsbD k = true := by decide
      simp [this, h255 _ hp]

/-- The eight bits of an element determine it. -/
theorem elem_eq_iff_bits (x y : Byte) : x = y ↔ ∀ k, k < 8 → x.getLsbD k = y.getLsbD k :=
  ⟨fun h _ _ => h ▸ rfl, fun h => BitVec.eq_of_getLsbD_eq h⟩

/-- Two well-formed buffers with the same bits are the same data. -/
theorem Memory.ext_bits {m m' : Memory} {len : Nat} (h : Memory.wf m len = true) (h' : Memory.wf m' len = true)
    (hb : ∀ j, j < len * 8 → m.bit j = m'.bit j) : m = m' := by
  apply Memory.ext_of_wf h h'
  intro i hi
  rw [elem_eq_iff_bits]
  intro k hk
  have := hb (i * 8 + (7 - k)) (by omega)
  unfold Memory.bit elemOf posOf at this
  rwa [show (i * 8 + (7 - k)) / 8 = i by omega, show 7 - (i * 8 + (7 - k)) % 8 = k by omega] at this

/-- An element answers the test for zeros exactly when the fill would not change it. -/
theorem elemZeroFrom_iff (n i : Nat) (v : Byte) : elemZeroFrom n i v = true ↔ zeroElem n i v = v := by
  unfold elemZeroFrom zeroElem
  split
  · simp
  · split
    · generalize suffixMask n = x
      simp only [decide_eq_true_eq, elem_eq_iff_bits]
      apply forall_congr'; intro k; apply forall_congr'; intro hk
      simp only [BitVec.getLsbD_and, BitVec.getLsbD_not, BitVec.getLsbD_zero, hk]
      cases v.getLsbD k <;> simp
    · simp only [decide_eq_true_eq]; exact eq_comm

theorem elemOnesFrom_iff (n i : Nat) (v : Byte) : elemOnesFrom n i v = true ↔ onesElem n i v = v := by
  unfold elemOnesFrom onesElem
  split
  · simp
  · split
    · generalize suffixMask n = x
      simp only [decide_eq_true_eq, elem_eq_iff_bits]
      apply forall_congr'; intro k; apply forall_congr'; intro hk
      simp only [BitVec.getLsbD_and, BitVec.getLsbD_or]
      cases v.getLsbD k <;> cases x.getLsbD k <;> simp
    · simp only [decide_eq_true_eq]; exact eq_comm

theorem allZeroFrom_iff {m : Memory} (n : Nat) : allZeroFrom m n = true ↔ zeroFrom m n = m := by
  unfold allZeroFrom zeroFrom
  induction m with
  | nil => simp
  | cons c rest ih =>
    obtain ⟨k, v⟩ := c
    simp only [List.all_cons, Bool.and_eq_true, List.map_cons, List.cons.injEq, ih, elemZeroFrom_iff]
    simp

theorem allOnesFrom_iff {m : Memory} (n : Nat) : allOnesFrom m n = true ↔ onesFrom m n = m := by
  unfold allOnesFrom onesFrom
  induction m with
  | nil => simp
  | cons c rest ih =>
    obtain ⟨k, v⟩ := c
    simp only [List.all_cons, Bool.and_eq_true, List.map_cons, List.cons.injEq, ih, elemOnesFrom_iff]
    simp

theorem wf_zeroFrom (m : Memory) (n len : Nat) : Memory.wf (zeroFrom m n) len = Memory.wf m len :=
  Memory.wf_map_cells (zeroElem n) m len

theorem wf_onesFrom (m : Memory) (n len : Nat) : Memory.wf (onesFrom m n) len = Memory.wf m len :=
  Memory.wf_map_cells (onesElem n) m len

theorem allZeroFrom_iff_bits {m : Memory} {len : Nat} (h : Memory.wf m len = true) (n : Nat) :
    allZeroFrom m n = true ↔ ∀ j, n ≤ j → j < len * 8 → m.bit j = false := by
  rw [allZeroFrom_iff]
  constructor
  · intro he j hn hj
    have := bit_zeroFrom h n hj
    rw [he] at this; simpa [hn] using this
  · intro hb
    apply Memory.ext_bits (by rw [wf_zeroFrom]; exact h) h
    intro j hj
    rw [bit_zeroFrom h n hj]
    split
    · exact (hb j ‹_› hj).symm
    · rfl

theorem allOnesFrom_iff_bits {m : Memory} {len : Nat} (h : Memory.wf m len = true) (n : Nat) :
    allOnesFrom m n = true ↔ ∀ j, n ≤ j → j < len * 8 → m.bit j = true := by
  rw [allOnesFrom_iff]
  constructor
  · intro he j hn hj
    have := bit_onesFrom h n hj
    rw [he] at this; simpa [hn] using this
  · intro hb
    apply Memory.ext_bits (by rw [wf_onesFrom]; exact h) h
    intro j hj
    rw [bit_onesFrom h n hj]
    split
    · exact (hb j ‹_› hj).symm
    · rfl

theorem elem_eq_iff_bit {a b : Memory} {i : Nat} : a.elem i = b.elem i ↔ ∀ j, elemOf j = i → a.bit j = b.bit j := by
  rw [elem_eq_iff_bits]
  constructor
  · intro h j hj; unfold Memory.bit; rw [hj]; exact h _ (by unfold posOf; omega)
  · intro h k hk
    have := h (i * 8 + (7 - k)) (by unfold elemOf; omega)
    unfold Memory.bit elemOf posOf at this
    rwa [show (i * 8 + (7 - k)) / 8 = i by omega, show 7 - (i * 8 + (7 - k)) % 8 = k by omega] at this

/-- What the containment test compares, in bits. -/
theorem agreeBelow_iff (a b : Memory) (n : Nat) : agreeBelow a b n = true ↔ ∀ j, j < n → a.bit j = b.bit j := by
  have hbd : (if n % 8 ≠ 0 then decide ((a.elem (elemOf n) ^^^ b.elem (elemOf n)) &&& coveredMask n = 0x00#8) else true) = true ↔
      ∀ j, j < n → elemOf j = elemOf n → a.bit j = b.bit j := by
    split
    · rename_i h8
      rw [decide_eq_true_eq, elem_eq_iff_bits]
      constructor
      · intro h j hj hej
        have hp : posOf j < 8 := by unfold posOf; omega
        have := h _ hp
        simp only [BitVec.getLsbD_and, BitVec.getLsbD_xor, coveredMask, BitVec.getLsbD_not, hp, getLsbD_suffixMask h8 hp] at this
        have hle : ¬ posOf j ≤ posOf n := by unfold posOf; unfold elemOf at hej; omega
        simp [hle] at this
        unfold Memory.bit; rw [hej]; exact this
      · intro h k hk
        simp only [BitVec.getLsbD_and, BitVec.getLsbD_xor, coveredMask, BitVec.getLsbD_not, hk, getLsbD_suffixMask h8 hk]
        by_cases hle : k ≤ posOf n
        · simp [hle]
        · have := h (elemOf n * 8 + (7 - k)) (by unfold elemOf; unfold posOf at hle; omega) (by unfold elemOf; omega)
          unfold Memory.bit elemOf posOf at this
          rw [show (n / 8 * 8 + (7 - k)) / 8 = n / 8 by omega, show 7 - (n / 8 * 8 + (7 - k)) % 8 = k by omega] at this
          simp [elemOf, this]
    · rename_i h8
      simp only [true_iff]
      intro j hj hej; unfold elemOf at hej; omega
  unfold agreeBelow
  rw [Bool.and_eq_true, hbd, List.all_eq_true]
  simp only [List.mem_range, decide_eq_true_eq, elem_eq_iff_bit]
  constructor
  · rintro ⟨h1, h2⟩ j hj
    by_cases hej : elemOf j = elemOf n
    · exact h2 j hj hej
    · exact h1 (elemOf j) (by unfold elemOf at *; omega) j rfl
  · intro h
    exact ⟨fun i hi j hj => h j (by unfold elemOf at *; omega), fun j hj _ => h j hj⟩

/-- `clz8` of a nonzero element, in the position it names. -/
theorem clz8_spec (x : Byte) (hx : x ≠ 0#8) : clz8 x ≤ 7 ∧ x.getLsbD (7 - clz8 x) = true ∧ ∀ k, 7 - clz8 x < k → x.getLsbD k = false := by
  have h : ∀ x : Byte, x ≠ 0#8 → clz8 x ≤ 7 ∧ x.getLsbD (7 - clz8 x) = true ∧ ∀ k, k < 8 → 7 - clz8 x < k → x.getLsbD k = false := by
    decide
  refine ⟨(h x hx).1, (h x hx).2.1, fun k hk => ?_⟩
  by_cases h8 : k < 8
  · exact (h x hx).2.2 k h8 hk
  · exact BitVec.getLsbD_of_ge _ _ (by omega)
end Sys2Proof.Machine
end

