-- ==== Sys2Proof/Laws/Commands.lean ====
section
/-! SUPPORT. Everything a range check, a command, an issue and a step can do, said once each. -/

namespace Sys2Proof.Machine

open Sys2Proof

/-! ## The range checks -/

theorem index_ok {n : Nat} {s e : State} (h : n < s.tb) : whenIndexInRange n s e = .next e := by
  unfold whenIndexInRange; rw [if_neg (by omega)]

theorem index_bad {n : Nat} {s e : State} (h : s.tb ≤ n) :
    whenIndexInRange n s e = .next (raiseFault .indexRange s) := by
  unfold whenIndexInRange; rw [if_pos h]

theorem length_ok {n : Nat} {s e : State} (h : n ≤ s.tb) : whenLengthInRange n s e = .next e := by
  unfold whenLengthInRange; rw [if_neg (by omega)]

theorem length_bad {n : Nat} {s e : State} (h : s.tb < n) :
    whenLengthInRange n s e = .next (raiseFault .lengthRange s) := by
  unfold whenLengthInRange; rw [if_pos h]

/-- The index check answers the fault entry or the effect, and says when. -/
theorem index_cases (n : Nat) (s e : State) :
    (s.tb ≤ n ∧ whenIndexInRange n s e = .next (raiseFault .indexRange s)) ∨
      (n < s.tb ∧ whenIndexInRange n s e = .next e) := by
  rcases Nat.lt_or_ge n s.tb with h | h
  · exact .inr ⟨h, index_ok h⟩
  · exact .inl ⟨h, index_bad h⟩

/-- The length check answers the fault entry or the effect, and says when. -/
theorem length_cases (n : Nat) (s e : State) :
    (s.tb < n ∧ whenLengthInRange n s e = .next (raiseFault .lengthRange s)) ∨
      (n ≤ s.tb ∧ whenLengthInRange n s e = .next e) := by
  rcases Nat.lt_or_ge s.tb n with h | h
  · exact .inl ⟨h, length_bad h⟩
  · exact .inr ⟨h, length_ok h⟩

theorem tb_le_of_wf {s : State} (h : s.cfg.wf = true) : s.tb ≤ 248 := by
  simp only [Config.wf, Bool.and_eq_true, decide_eq_true_eq] at h
  rw [State.tb_eq]; omega

/-- The invariant in its parts. -/
theorem wf_iff (s : State) : s.wf = true ↔ s.cfg.wf = true ∧ Memory.wf s.a s.cfg.len = true ∧
    Memory.wf s.b s.cfg.len = true ∧ (s.fault = false ↔ s.fcause = 0#2) := by
  unfold State.wf
  simp only [Bool.and_eq_true, and_assoc]
  cases hf : s.fault <;> simp

/-! ## Which buffers the writing commands leave well formed -/

theorem wf_turnBitOn (m : Memory) (n len : Nat) : Memory.wf (turnBitOn m n) len = Memory.wf m len :=
  Memory.wf_modify _ _ _ _

theorem wf_turnBitOff (m : Memory) (n len : Nat) : Memory.wf (turnBitOff m n) len = Memory.wf m len :=
  Memory.wf_modify _ _ _ _

theorem wf_invertBit (m : Memory) (n len : Nat) : Memory.wf (invertBit m n) len = Memory.wf m len :=
  Memory.wf_modify _ _ _ _

theorem wf_incBuffer (m : Memory) (n len : Nat) : Memory.wf (incBuffer m n) len = Memory.wf m len := by
  unfold incBuffer
  split
  · rw [wf_invertBit, Memory.wf_addOne]
  · rw [Memory.wf_addOne]

/-! ## Commands -/

/-- The effect form of a command: it leaves `A`, `R`, `T` at some values, `A` still a buffer of `LEN` elements, and
nothing else changes. -/
def effectOnly (s s' : State) : Prop :=
  ∃ m r t, s' = { s with a := m, r := r, t := t } ∧ Memory.wf m s.cfg.len = Memory.wf s.a s.cfg.len

theorem effectOnly_setA {s : State} {m : Memory} (h : Memory.wf m s.cfg.len = Memory.wf s.a s.cfg.len) :
    effectOnly s (s.setA m) := ⟨m, s.r, s.t, rfl, h⟩

theorem effectOnly_setR (s : State) (v : Byte) : effectOnly s (s.setR v) := ⟨s.a, v, s.t, rfl, rfl⟩

theorem effectOnly_setT (s : State) (v : Bool) : effectOnly s (s.setT v) := ⟨s.a, s.r, v, rfl, rfl⟩

/-- The two ways an index command ends. -/
theorem index_outcome {n : Nat} {s e : State} (h : effectOnly s e) :
    (s.tb ≤ n ∧ whenIndexInRange n s e = .next (raiseFault .indexRange s)) ∨
      ∃ s', whenIndexInRange n s e = .next s' ∧ effectOnly s s' :=
  (index_cases n s e).imp id fun ⟨_, he⟩ => ⟨e, he, h⟩

/-- The two ways a length command ends. -/
theorem length_outcome {n : Nat} {s e : State} (h : effectOnly s e) :
    (s.tb < n ∧ whenLengthInRange n s e = .next (raiseFault .lengthRange s)) ∨
      ∃ s', whenLengthInRange n s e = .next s' ∧ effectOnly s s' :=
  (length_cases n s e).imp id fun ⟨_, he⟩ => ⟨e, he, h⟩

/-- Everything a command can do: one of the two range faults, or an effect on `A`, `R`, `T` alone. -/
theorem exec_outcome (i : Instr) (s : State) :
    (s.tb ≤ i.n ∧ exec i s = .next (raiseFault .indexRange s)) ∨
    (s.tb < i.n ∧ exec i s = .next (raiseFault .lengthRange s)) ∨
    ∃ s', exec i s = .next s' ∧ effectOnly s s' := by
  cases i with
  | mask n => exact .inr (.inr ⟨_, rfl, effectOnly_setR _ _⟩)
  | get n => exact (index_outcome (effectOnly_setT _ _)).imp id .inr
  | set n b =>
    refine (index_outcome (effectOnly_setA ?_)).imp id .inr
    cases b
    · exact wf_turnBitOff _ _ _
    · exact wf_turnBitOn _ _ _
  | on n => exact (index_outcome (effectOnly_setA (wf_turnBitOn _ _ _))).imp id .inr
  | off n => exact (index_outcome (effectOnly_setA (wf_turnBitOff _ _ _))).imp id .inr
  | flip n => exact (index_outcome (effectOnly_setA (wf_invertBit _ _ _))).imp id .inr
  | inc n => exact .inr (length_outcome ⟨incBuffer s.a n, s.r, incReport s.a n, rfl, wf_incBuffer _ _ _⟩)
  | sharedPrefixLen n => exact .inr (length_outcome (effectOnly_setR _ _))
  | zeroesfrom n => exact .inr (length_outcome (effectOnly_setA (wf_zeroFrom _ _ _)))
  | onesfrom n => exact .inr (length_outcome (effectOnly_setA (wf_onesFrom _ _ _)))
  | isZeroesfrom n => exact .inr (length_outcome (effectOnly_setT _ _))
  | isOnesfrom n => exact .inr (length_outcome (effectOnly_setT _ _))
  | contains n => exact .inr (length_outcome (effectOnly_setT _ _))

/-! ## Issue, step, run -/

/-- Everything an issue can do (30 R55): ignored, illegal, or the decoded command. -/
theorem issue_cases (w : CommandWord) (s : State) :
    (s.fault = true ∧ issue w s = .next s) ∨
    (s.fault = false ∧ (∃ e, decode w = .error e) ∧ issue w s = .next (raiseFault .illegalCommand s)) ∨
    (s.fault = false ∧ ∃ i, decode w = .ok i ∧ issue w s = exec i s) := by
  unfold issue
  cases hf : s.fault
  · right
    cases hd : decode w with
    | error e => exact .inl ⟨rfl, ⟨e, rfl⟩, rfl⟩
    | ok i => exact .inr ⟨rfl, i, rfl, rfl⟩
  · left; simp

/-- The step of a state whose list of moves begins with `m`. -/
theorem step_cons {s : State} {m : Move} {rest : List Move} (h : s.pending = m :: rest) :
    step s = makeMove m { s with pending := rest } := by
  unfold step nextMove; rw [h]; rfl

/-- The step of a state with no move to make. -/
theorem step_nil {s : State} (h : s.pending = []) : step s = .next s := by
  unfold step nextMove; rw [h]

/-- The first move of a run. -/
theorem runMoves_cons {m : Move} {rest : List Move} {s s' : State} (h : makeMove m s = .next s') :
    runMoves (m :: rest) s = runMoves rest s' := by
  rw [runMoves, h]

/-- One more step of the host's `run`, for any machine. -/
theorem host_run_succ (M : Host.Core) (k : Nat) (s s' : M.State) (h : M.step s = .next s') :
    M.run (k + 1) s = M.run k s' := by
  rw [Host.Core.run, h]

theorem core_step (s : State) : Sys2Proof.core.step s = step s := rfl

end Sys2Proof.Machine
end

