-- ==== Sys2Proof/Laws/PerInstr.lean ====
section
/-! SUPPORT. The family RowMatch: every command's word lies in its own row of the opcode map (30 R52, R53). -/

namespace Sys2Proof.Laws.RowMatch

open Sys2Proof

/-- The fixed bits of a command's format (30 R52): all but `N`, and for `set` all but `BIT` and `N`. -/
def rowMask : Instr → CommandWord
  | .set _ _ => 0xFE00#16
  | .mask _ => 0xFF00#16
  | .get _ => 0xFF00#16
  | .on _ => 0xFF00#16
  | .off _ => 0xFF00#16
  | .flip _ => 0xFF00#16
  | .inc _ => 0xFF00#16
  | .sharedPrefixLen _ => 0xFF00#16
  | .zeroesfrom _ => 0xFF00#16
  | .onesfrom _ => 0xFF00#16
  | .isZeroesfrom _ => 0xFF00#16
  | .isOnesfrom _ => 0xFF00#16
  | .contains _ => 0xFF00#16

/-- The values of the fixed bits, one row of 30 R53 each. -/
def rowMatch : Instr → CommandWord
  | .mask _ => 0x0000#16
  | .get _ => 0x1000#16
  | .set _ _ => 0x2000#16
  | .on _ => 0x3000#16
  | .off _ => 0x4000#16
  | .flip _ => 0x5000#16
  | .inc _ => 0x6000#16
  | .sharedPrefixLen _ => 0x7000#16
  | .zeroesfrom _ => 0x8000#16
  | .onesfrom _ => 0x9000#16
  | .isZeroesfrom _ => 0xA000#16
  | .isOnesfrom _ => 0xB000#16
  | .contains _ => 0xC000#16

/-- A well-formed command's word agrees with its row at the row's fixed bits. -/
def Statement (i : Instr) : Prop := i.wellFormed = true → encode i &&& rowMask i = rowMatch i

/-- The operand byte of a word never reaches the fixed bits. -/
theorem fixed_bits (op : BitVec 4) (x : BitVec 8) : (op ++ 0#3 ++ BitVec.ofBool false ++ x) &&& 0xFF00#16 = op ++ 0#12 := by
  apply BitVec.eq_of_getLsbD_eq
  intro k hk
  have h8 : ∀ k, k < 16 → (0xFF00#16).getLsbD k = decide (8 ≤ k) := by decide
  simp only [BitVec.getLsbD_and, BitVec.getLsbD_append, h8 k hk]
  have h1 : (BitVec.ofBool false).getLsbD (k - 8) = false := by simp
  by_cases a : k < 8
  · simp [a, show k < 12 by omega]
  · simp only [a, h1]
    by_cases b : k - 8 < 1
    · simp [b, show k < 12 by omega]
    · by_cases c : k - 8 - 1 < 3
      · simp [b, c, show k < 12 by omega]
      · simp [b, c, show ¬ k < 12 by omega, show 8 ≤ k by omega, show k - 8 - 1 - 3 = k - 12 by omega]

theorem mask (n : Nat) : Statement (.mask n) := fun _ => fixed_bits 0#4 (BitVec.ofNat 8 n)

theorem get (n : Nat) : Statement (.get n) := fun _ => fixed_bits 1#4 (BitVec.ofNat 8 n)

theorem set (n : Nat) (bit : Bool) : Statement (.set n bit) := fun _ => by
  have h : ∀ (b : Bool) (x : BitVec 8), (2#4 ++ 0#3 ++ BitVec.ofBool b ++ x) &&& 0xFE00#16 = 0x2000#16 := by decide
  exact h bit (BitVec.ofNat 8 n)

theorem on (n : Nat) : Statement (.on n) := fun _ => fixed_bits 3#4 (BitVec.ofNat 8 n)

theorem off (n : Nat) : Statement (.off n) := fun _ => fixed_bits 4#4 (BitVec.ofNat 8 n)

theorem flip (n : Nat) : Statement (.flip n) := fun _ => fixed_bits 5#4 (BitVec.ofNat 8 n)

theorem inc (n : Nat) : Statement (.inc n) := fun _ => fixed_bits 6#4 (BitVec.ofNat 8 n)

theorem sharedPrefixLen (n : Nat) : Statement (.sharedPrefixLen n) := fun _ => fixed_bits 7#4 (BitVec.ofNat 8 n)

theorem zeroesfrom (n : Nat) : Statement (.zeroesfrom n) := fun _ => fixed_bits 8#4 (BitVec.ofNat 8 n)

theorem onesfrom (n : Nat) : Statement (.onesfrom n) := fun _ => fixed_bits 9#4 (BitVec.ofNat 8 n)

theorem isZeroesfrom (n : Nat) : Statement (.isZeroesfrom n) := fun _ => fixed_bits 10#4 (BitVec.ofNat 8 n)

theorem isOnesfrom (n : Nat) : Statement (.isOnesfrom n) := fun _ => fixed_bits 11#4 (BitVec.ofNat 8 n)

theorem contains (n : Nat) : Statement (.contains n) := fun _ => fixed_bits 12#4 (BitVec.ofNat 8 n)

end Sys2Proof.Laws.RowMatch
end

