-- ==== Sys2Proof/Laws/Value.lean ====
section
/-! SUPPORT. Buffers as numbers, and the ripple of the increment. -/

namespace Sys2Proof.Machine

open Sys2Proof

/-- Reading on from an accumulator weighs it by the elements still to come. -/
theorem foldl_val (m : Memory) (acc : Nat) :
    m.foldl (fun acc c => acc * 256 + c.2.toNat) acc = acc * 256 ^ m.length + m.val := by
  induction m generalizing acc with
  | nil => simp [Memory.val]
  | cons c rest ih =>
    unfold Memory.val
    simp only [List.foldl_cons, List.length_cons]
    rw [ih, ih (0 * 256 + c.2.toNat)]
    ring

/-- The first element is the most significant (20 R31). -/
theorem val_cons (c : Host.Cell) (rest : Memory) :
    Memory.val (c :: rest) = c.2.toNat * 256 ^ rest.length + Memory.val rest := by
  unfold Memory.val
  rw [List.foldl_cons, foldl_val]
  simp [Memory.val]

/-- A buffer of `k` elements is below `256 ^ k`. -/
theorem val_lt (m : Memory) : m.val < 256 ^ m.length := by
  induction m with
  | nil => simp [Memory.val]
  | cons c rest ih =>
    rw [val_cons, List.length_cons, pow_succ]
    have := c.2.isLt
    nlinarith

/-- An element is a digit, in base 256, of the whole number. -/
theorem cell_of_val (m : Memory) (i : Nat) (hi : i < m.length) :
    (m[i]).2.toNat = m.val / 256 ^ (m.length - 1 - i) % 256 := by
  induction m generalizing i with
  | nil => simp at hi
  | cons c rest ih =>
    have hlt := val_lt rest
    have hpos : 0 < 256 ^ rest.length := by positivity
    rw [val_cons]
    cases i with
    | zero =>
      have hc := c.2.isLt
      simp only [List.getElem_cons_zero, List.length_cons, Nat.add_sub_cancel, Nat.sub_zero]
      rw [Nat.add_comm, Nat.add_mul_div_right _ _ hpos, Nat.div_eq_of_lt hlt]
      omega
    | succ i =>
      simp only [List.length_cons] at hi
      simp only [List.getElem_cons_succ, List.length_cons]
      rw [ih i (by omega)]
      have he : rest.length = (rest.length - 1 - i) + 1 + i := by omega
      rw [show rest.length + 1 - 1 - (i + 1) = rest.length - 1 - i by omega]
      generalize hk : rest.length - 1 - i = k at *
      rw [show c.2.toNat * 256 ^ rest.length = (c.2.toNat * 256 ^ i * 256) * 256 ^ k by rw [he]; ring]
      rw [Nat.add_comm, Nat.add_mul_div_right _ _ (by positivity), Nat.add_mul_mod_self_right]

/-- The ripple from the last element adds one; the carry is what the number loses. -/
theorem val_addOne (m : Memory) :
    (m.addOne).1.val + (if (m.addOne).2 = true then 256 ^ m.length else 0) = m.val + 1 := by
  induction m with
  | nil => simp [Memory.addOne, Memory.val]
  | cons c rest ih =>
    have hlen : (Memory.addOne rest).1.length = rest.length := by
      have := congrArg List.length (Memory.map_fst_addOne rest); simpa using this
    by_cases h2 : (Memory.addOne rest).2 = true
    · simp only [h2, if_true] at ih
      by_cases hc : c.2 = 0xFF#8
      · simp only [Memory.addOne, h2, hc, if_true, val_cons, hlen, List.length_cons, pow_succ]
        have h0 : (0x00#8).toNat = 0 := rfl
        have hf : (0xFF#8).toNat = 255 := rfl
        rw [h0, hf]; omega
      · simp only [Memory.addOne, h2, hc, if_true, if_false, val_cons, hlen]
        have hne : c.2.toNat ≠ 255 := fun e => hc (BitVec.eq_of_toNat_eq e)
        have hlt := c.2.isLt
        have : (c.2 + 1#8).toNat = c.2.toNat + 1 := by
          rw [BitVec.toNat_add]; simp; omega
        rw [this]; simp; linarith
    · have h2' : (Memory.addOne rest).2 = false := by simpa using h2
      simp only [h2'] at ih
      simp only [Memory.addOne, h2', Bool.false_eq_true, if_false, val_cons, hlen] at ih ⊢
      omega

/-- The ripple of 41 R81 step (2): plus one modulo `2 ^ TB`, and when it carries out. -/
theorem addOne_spec {m : Memory} {len : Nat} (h : Memory.wf m len = true) :
    (m.addOne).1.val = (m.val + 1) % 2 ^ (8 * len) ∧ ((m.addOne).2 = true ↔ m.val = 2 ^ (8 * len) - 1) := by
  have h1 := val_addOne m
  have h2 := val_lt m
  have h3 := val_lt (m.addOne).1
  have hlen : (m.addOne).1.length = m.length := by
    have := congrArg List.length (Memory.map_fst_addOne m); simpa using this
  rw [hlen] at h3
  rw [Memory.length_of_wf h, show 256 ^ len = 2 ^ (8 * len) by rw [pow_mul]; rfl] at *
  generalize 2 ^ (8 * len) = W at *
  split at h1
  · constructor
    · rw [show m.val + 1 = (m.addOne).1.val + W * 1 by omega, Nat.add_mul_mod_self_left, Nat.mod_eq_of_lt h3]
    · simp [*]; omega
  · constructor
    · rw [← h1]; simp [Nat.mod_eq_of_lt h3]
    · simp [*]; omega

end Sys2Proof.Machine
end

