-- ==== Sys2Proof/Tests/Slice0.lean ====
section
/-! SUPPORT. Tests whose expected results are the spec's own words and vectors (30 R60, 95), and for every statement with
hypotheses a concrete state and operands that meet them. -/

namespace Sys2Proof.Tests

open Sys2Proof Sys2Proof.Machine Sys2Proof.Claims

/-! ## A small state -/

/-- A buffer from its elements, element 0 first. -/
def buffer (elems : List Byte) : Memory := (List.range elems.length).zip elems

/-- An unfaulted unit with the two buffers, `R = 0x5A`, `T = t`, nothing pending. -/
def unitOf (len : Nat) (a b : List Byte) (t : Bool) : State :=
  { cfg := ⟨len⟩, a := buffer a, b := buffer b, r := 0x5A#8, t := t, fault := false, fcause := 0#2, resets := 0,
    pending := [], replies := [] }

/-- The array `C0 A8 01 2A` of most vectors of 95, against `C0 A8 01 00`. -/
def u : State := unitOf 4 [0xC0#8, 0xA8#8, 0x01#8, 0x2A#8] [0xC0#8, 0xA8#8, 0x01#8, 0x00#8] false

/-- The same unit, faulted by an index out of range. -/
def faulted : State := { u with fault := true, fcause := 2#2 }

/-- The state after the host issues the word, if the step has one. -/
def after (w : Nat) (s : State) : Option State :=
  match step (s.withFetchWord 16 w) with
  | .next s' => some s'
  | .fault _ => none
  | .refused _ => none

/-- The elements of `A` after the word. -/
def aAfter (w : Nat) (s : State) : Option (List Byte) := (after w s).map fun s' => s'.a.map Prod.snd

def tAfter (w : Nat) (s : State) : Option Bool := (after w s).map fun s' => s'.t

def rAfter (w : Nat) (s : State) : Option Byte := (after w s).map fun s' => s'.r

/-- The word raises the cause and changes nothing else. -/
def faults (w : Nat) (code : BitVec 2) (s : State) : Prop := after w s = some { s with fault := true, fcause := code }

/-! ## WellFormed: an operand that fits no field, for every command (30 R51, R59) -/

theorem test_wellFormed_refuses_256 :
    (Instr.mask 256).wellFormed = false ∧ (Instr.get 256).wellFormed = false ∧ (Instr.set 256 true).wellFormed = false ∧
    (Instr.on 256).wellFormed = false ∧ (Instr.off 256).wellFormed = false ∧ (Instr.flip 256).wellFormed = false ∧
    (Instr.inc 256).wellFormed = false ∧ (Instr.sharedPrefixLen 256).wellFormed = false ∧
    (Instr.zeroesfrom 256).wellFormed = false ∧ (Instr.onesfrom 256).wellFormed = false ∧
    (Instr.isZeroesfrom 256).wellFormed = false ∧ (Instr.isOnesfrom 256).wellFormed = false ∧
    (Instr.contains 256).wellFormed = false := by decide

theorem test_wellFormed_admits_255 : (Instr.get 255).wellFormed = true ∧ (Instr.set 255 false).wellFormed = true := by
  decide

theorem test_config_wf : Config.wf ⟨0⟩ = false ∧ Config.wf ⟨1⟩ = true ∧ Config.wf ⟨31⟩ = true ∧ Config.wf ⟨32⟩ = false := by
  decide

/-- A buffer that is short, one with an index twice, one out of order: no buffer of four elements. -/
theorem test_memory_wf_refuses :
    Memory.wf (buffer [1#8, 2#8, 3#8]) 4 = false ∧ Memory.wf [(0, 1#8), (1, 1#8), (1, 1#8), (3, 1#8)] 4 = false ∧
    Memory.wf [(1, 1#8), (0, 1#8), (2, 1#8), (3, 1#8)] 4 = false ∧ Memory.wf u.a 4 = true := by decide

theorem test_state_wf_refuses :
    { u with fault := true }.wf = false ∧ { u with fcause := 3#2 }.wf = false ∧ { u with b := [] }.wf = false ∧
    { u with cfg := ⟨5⟩ }.wf = false ∧ u.wf = true ∧ faulted.wf = true := by decide

/-! ## Decoding: words written out from 30 R51, R53, field by field -/

theorem test_decode_mask : decode 0b0000_000_0_00001010#16 = .ok (.mask 10) := by decide
theorem test_decode_get : decode 0b0001_000_0_00000101#16 = .ok (.get 5) := by decide
theorem test_decode_set_one : decode 0b0010_000_1_00000101#16 = .ok (.set 5 true) := by decide
theorem test_decode_set_zero : decode 0b0010_000_0_00000101#16 = .ok (.set 5 false) := by decide
theorem test_decode_on : decode 0b0011_000_0_00011111#16 = .ok (.on 31) := by decide
theorem test_decode_off : decode 0b0100_000_0_00000000#16 = .ok (.off 0) := by decide
theorem test_decode_flip : decode 0b0101_000_0_01111111#16 = .ok (.flip 127) := by decide
theorem test_decode_inc : decode 0b0110_000_0_00011000#16 = .ok (.inc 24) := by decide
theorem test_decode_sharedPrefixLen : decode 0b0111_000_0_00100000#16 = .ok (.sharedPrefixLen 32) := by decide
theorem test_decode_zeroesfrom : decode 0b1000_000_0_00011000#16 = .ok (.zeroesfrom 24) := by decide
theorem test_decode_onesfrom : decode 0b1001_000_0_00011000#16 = .ok (.onesfrom 24) := by decide
theorem test_decode_isZeroesfrom : decode 0b1010_000_0_00011000#16 = .ok (.isZeroesfrom 24) := by decide
theorem test_decode_isOnesfrom : decode 0b1011_000_0_10000000#16 = .ok (.isOnesfrom 128) := by decide
theorem test_decode_contains : decode 0b1100_000_0_11111111#16 = .ok (.contains 255) := by decide

/-- 30 R56: the three ways a word is illegal. -/
theorem test_decode_illegal :
    decode 0b1101_000_0_00000000#16 = .error .reservedOperation ∧ decode 0b1111_111_1_11111111#16 = .error .reservedOperation ∧
    decode 0b0001_001_0_00000101#16 = .error .zeroFieldNotZero ∧ decode 0b0010_100_1_00000101#16 = .error .zeroFieldNotZero ∧
    decode 0b0001_000_1_00000101#16 = .error .bitOutsideSet ∧ decode 0b0000_000_1_00000000#16 = .error .bitOutsideSet := by
  decide

theorem test_decodeTableWord :
    decodeTableWord 16 0x6018 = some (.inc 24) ∧ decodeTableWord 16 0xD000 = none ∧ decodeTableWord 16 0x1205 = none := by
  decide

/-! ## Commands: the vectors of 95 -/

/-- V-MASK-6, V-MASK-12: the second with an index beyond the array. -/
theorem test_mask : rAfter 0x0005 u = some 0x04#8 ∧ rAfter 0x0020 u = some 0x80#8 := by decide

/-- V-GET-8, V-GET-9. -/
theorem test_get : tAfter 0x1017 u = some true ∧ tAfter 0x1018 { u with t := true } = some false := by decide

/-- V-GET-13. -/
theorem test_get_out_of_range : faults 0x1020 2#2 u := by unfold faults; decide

/-- V-SET-7, V-SET-8. -/
theorem test_set : aAfter 0x2107 u = some [0xC1#8, 0xA8#8, 0x01#8, 0x2A#8] ∧
    aAfter 0x2008 u = some [0xC0#8, 0x28#8, 0x01#8, 0x2A#8] := by decide

/-- V-SET-9. -/
theorem test_set_out_of_range : faults 0x2120 2#2 u := by unfold faults; decide

/-- V-ON-1, V-ON-4. -/
theorem test_on : aAfter 0x3002 u = some [0xE0#8, 0xA8#8, 0x01#8, 0x2A#8] ∧ faults 0x3020 2#2 u := by
  unfold faults; decide

/-- V-OFF-3, V-OFF-4. -/
theorem test_off : aAfter 0x4017 u = some [0xC0#8, 0xA8#8, 0x00#8, 0x2A#8] ∧ faults 0x40C8 2#2 u := by
  unfold faults; decide

/-- V-FLIP-5, V-FLIP-10. -/
theorem test_flip : aAfter 0x5010 u = some [0xC0#8, 0xA8#8, 0x81#8, 0x2A#8] ∧ faults 0x5020 2#2 u := by
  unfold faults; decide

/-- V-INC-6: the guard bit was 1, and the bits before it are incremented (90 C1). -/
theorem test_inc_guard_one :
    aAfter 0x6018 (unitOf 4 [0xC0#8, 0xA8#8, 0x01#8, 0xFF#8] [] false) = some [0xC0#8, 0xA8#8, 0x03#8, 0x00#8] ∧
    tAfter 0x6018 (unitOf 4 [0xC0#8, 0xA8#8, 0x01#8, 0xFF#8] [] false) = some true := by decide

/-- V-INC-7: the carry ends inside the array and the report is 1; V-INC-16: no guard, no report; V-INC-30: out of range. -/
theorem test_inc_reports :
    aAfter 0x6010 (unitOf 4 [0x00#8, 0x00#8, 0xFF#8, 0xFF#8] [] false) = some [0x00#8, 0x00#8, 0x00#8, 0x00#8] ∧
    tAfter 0x6010 (unitOf 4 [0x00#8, 0x00#8, 0xFF#8, 0xFF#8] [] false) = some true ∧
    aAfter 0x6000 (unitOf 4 [0x7F#8, 0xFF#8, 0xFF#8, 0xFF#8] [] true) = some [0x80#8, 0x00#8, 0x00#8, 0x00#8] ∧
    tAfter 0x6000 (unitOf 4 [0x7F#8, 0xFF#8, 0xFF#8, 0xFF#8] [] true) = some false ∧ faults 0x6021 3#2 u := by
  unfold faults; decide

/-- V-SPL-11, V-SPL-8, V-SPL-19. -/
theorem test_sharedPrefixLen : rAfter 0x7020 u = some 26#8 ∧ rAfter 0x7020 { u with b := u.a } = some 32#8 ∧
    faults 0x7021 3#2 u := by unfold faults; decide

/-- V-SPL-10, V-SPL-4: no element looked at, and the answer clipped. -/
theorem test_sharedPrefixLen_clipped : rAfter 0x7000 u = some 0#8 ∧
    rAfter 0x7010 (unitOf 4 [0xC0#8, 0xA8#8, 0x01#8, 0x00#8] [0xC0#8, 0xA8#8, 0x02#8, 0x01#8] false) = some 16#8 := by decide

/-- V-FILL-6, V-FILL-4, V-FILL-11. -/
theorem test_zeroesfrom : aAfter 0x800C u = some [0xC0#8, 0xA0#8, 0x00#8, 0x00#8] ∧
    aAfter 0x8008 u = some [0xC0#8, 0x00#8, 0x00#8, 0x00#8] ∧ faults 0x8021 3#2 u := by unfold faults; decide

/-- V-FILL-6, V-FILL-10, V-FILL-11. -/
theorem test_onesfrom : aAfter 0x900C u = some [0xC0#8, 0xAF#8, 0xFF#8, 0xFF#8] ∧
    aAfter 0x9020 u = some [0xC0#8, 0xA8#8, 0x01#8, 0x2A#8] ∧ faults 0x9021 3#2 u := by unfold faults; decide

/-- V-FILL-8, V-FILL-9, V-FILL-11. -/
theorem test_isZeroesfrom : tAfter 0xA019 { u with t := true } = some false ∧ tAfter 0xA01F u = some true ∧
    faults 0xA021 3#2 u := by unfold faults; decide

/-- V-PRED-6, V-PRED-7, V-FILL-11. -/
theorem test_isOnesfrom :
    tAfter 0xB017 (unitOf 4 [0xC0#8, 0xA8#8, 0x01#8, 0xFF#8] [] false) = some true ∧
    tAfter 0xB016 (unitOf 4 [0xC0#8, 0xA8#8, 0x01#8, 0xFF#8] [] true) = some false ∧ faults 0xB021 3#2 u := by
  unfold faults; decide

/-- V-CON-5, V-CON-6, V-CON-15, with the buffers of the vector exchanged. -/
theorem test_contains : tAfter 0xC01A u = some true ∧ tAfter 0xC01B { u with t := true } = some false ∧
    faults 0xC021 3#2 u := by unfold faults; decide

/-! ## Faults and the port -/

/-- 60 R127: a faulted unit ignores a command, an illegal word, and keeps its first cause. -/
theorem test_faulted_ignores : after 0x4000 faulted = some faulted ∧ after 0xD000 faulted = some faulted := by decide

/-- 30 R60's illegal words raise cause 1. -/
theorem test_illegal_words : faults 0xD000 1#2 u ∧ faults 0x1105 1#2 u ∧ faults 0x1205 1#2 u := by unfold faults; decide

/-- The moves after a run, if every move had a meaning. -/
def afterMoves (ms : List Move) (s : State) : Option State :=
  match runMoves ms s with
  | .next s' => some s'
  | .fault _ => none
  | .refused _ => none

/-- 20 R34: a faulted unit's port still works. -/
theorem test_port_of_faulted_unit :
    (afterMoves [.hostWrite .B 3 0x2A#8, .hostRead .B 3, .hostReadFault] faulted).map (fun s => s.replies) =
      some [.element .B 3 0x2A#8, .faultStatus true 2#2] := by decide

theorem test_port_absent_element : afterMoves [.hostRead .A 4] u = none ∧ afterMoves [.hostWrite .B 4 0#8] u = none := by
  decide

/-- 70 R140: reset clears the fault and nothing is said of the buffers. -/
theorem test_reset : (afterMoves [.reset] faulted).map (fun s => (s.fault, s.fcause, s.cfg, s.a.map Prod.fst)) =
    some (false, 0#2, ⟨4⟩, [0, 1, 2, 3]) := by decide

theorem test_step_after_reset :
    (match step (State.reset.withFetchWord 16 0x0000) with
      | .next s => some s.r
      | .fault _ => none
      | .refused _ => none) = some 0x80#8 := by decide

/-! ## The assembler (30 R59) -/

theorem test_assemble_hexadecimal_and_comment : assemble "  on 0x1F ; the last bit".toList = .ok 0x301F#16 := by decide
theorem test_assemble_number_too_large : assemble "get 256".toList = .error .numberTooLarge := by decide
theorem test_assemble_bit_too_large : assemble "set 5, 2".toList = .error .bitTooLarge := by decide
theorem test_assemble_unknown : assemble "jump 5".toList = .error .unknownMnemonic := by decide
theorem test_assemble_host_moves :
    moveOfLine "wrA 3, 0x2A".toList = .ok (.hostWrite .A 3 0x2A#8) ∧ moveOfLine "rdF".toList = .ok .hostReadFault ∧
    moveOfLine "reset ; again".toList = .ok .reset := by decide
theorem test_warning : shouldWarn Config.ipv4 (.get 32) = true ∧ shouldWarn Config.ipv4 (.get 31) = false ∧
    shouldWarn Config.ipv4 (.inc 33) = true ∧ shouldWarn Config.ipv4 (.inc 32) = false ∧
    shouldWarn Config.ipv4 (.mask 255) = false := by decide

/-! ## Witnesses: one for every statement that has hypotheses, at the boundaries of its clauses -/

/-- `u` with these moves pending. -/
def uWith (ms : List Move) : State := u.withPending ms

/-- `faulted` with these moves pending. -/
def faultedWith (ms : List Move) : State := faulted.withPending ms

theorem witness_DecodeOfEncodeIsTheCommand :
    (Instr.set 255 true).wellFormed = true ∧ (Instr.mask 0).wellFormed = true := by decide

theorem witness_EncodeOfDecodeIsTheWord : decode 0xC0FF#16 = .ok (.contains 255) := by decide

theorem witness_AssemblerAgreesWithEncoder :
    (Instr.get 255).wellFormed = true ∧ assemble "set 255, 1".toList = .ok 0x21FF#16 := by decide

/-- A command that faults and one at the last operand that does not. -/
theorem witness_AssemblerWarnsExactlyOfRangeFaults :
    u.fault = false ∧ shouldWarn u.cfg (.inc 33) = true ∧ shouldWarn u.cfg (.inc 32) = false ∧
    exec (.inc 33) u = .next { u with fault := true, fcause := 3#2 } := by
  refine ⟨rfl, by decide, by decide, rfl⟩

theorem witness_StepRunsTheDecodedCommand :
    (uWith [.issue 0x6018#16, .hostReadT]).pending = .issue 0x6018#16 :: [.hostReadT] ∧
    (uWith [.issue 0x6018#16, .hostReadT]).fault = false ∧ decode 0x6018#16 = .ok (.inc 24) := by decide

/-- Each of the three ways of being illegal, at its edge. -/
theorem witness_IllegalWordRaisesIllegalCommand :
    (uWith [.issue 0xD000#16]).pending = .issue 0xD000#16 :: [] ∧ (uWith [.issue 0xD000#16]).fault = false ∧
    decode 0xD000#16 = .error .reservedOperation ∧ 13 ≤ (0xD000#16 >>> 12).toNat ∧
    decode 0x2200#16 = .error .zeroFieldNotZero ∧ 0x2200#16 &&& 0x0E00#16 ≠ 0#16 ∧
    decode 0x1100#16 = .error .bitOutsideSet ∧ (0x1100#16 &&& 0x0100#16 ≠ 0#16 ∧ (0x1100#16 >>> 12).toNat ≠ 2) := by decide

/-- The faulted unit before a command, a write and a read of the last element, and `HostReadFault`. -/
theorem witness_FaultedUnitIgnoresEveryCommand :
    (faultedWith [.issue 0x4000#16]).fault = true ∧ (faultedWith [.issue 0x4000#16]).pending = .issue 0x4000#16 :: [] ∧
    (faultedWith [.hostWrite .A 3 1#8]).pending = .hostWrite .A 3 1#8 :: [] ∧ 3 < faulted.cfg.len ∧
    (faultedWith [.hostRead .B 3]).pending = .hostRead .B 3 :: [] ∧
    (faultedWith [.hostReadFault]).pending = .hostReadFault :: [] := by decide

theorem witness_EveryIssuedCommandCompletes :
    (uWith [.issue 0xFFFF#16]).pending = .issue 0xFFFF#16 :: [] := rfl

theorem witness_StepIsRefusedOnlyForAbsentElements :
    step (uWith [.hostRead .A 4]) = .refused (.noSuchElement .A 4) ∧
    step (uWith [.hostWrite .B 4 0#8]) = .refused (.noSuchElement .B 4) := ⟨rfl, rfl⟩

/-- The last element that exists and the first that does not. -/
theorem witness_HostPortMoves :
    (uWith [.hostWrite .A 3 1#8]).wf = true ∧ (uWith [.hostWrite .A 3 1#8]).pending = .hostWrite .A 3 1#8 :: [] ∧
    3 < u.cfg.len ∧ (uWith [.hostRead .B 4]).wf = true ∧ (uWith [.hostRead .B 4]).pending = .hostRead .B 4 :: [] ∧
    u.cfg.len ≤ 4 ∧ (uWith [.reset]).pending = .reset :: [] ∧ (uWith [.reset]).wf = true := by decide

theorem witness_HostWritesAreIdempotentAndCommute :
    0 < u.cfg.len ∧ 3 < u.cfg.len ∧ (Space.A ≠ Space.B ∨ 3 ≠ 3) ∧ (Space.A ≠ Space.A ∨ 0 ≠ 3) := by decide

theorem witness_HostReadReturnsTheLatestWrite : u.wf = true ∧ 3 < u.cfg.len := by decide

theorem witness_IndexRangeRaisedExactlyByIndexCommands :
    u.fault = false ∧ takesIndex (.get 32) = true ∧ u.tb ≤ (Instr.get 32).n ∧ ¬ u.tb ≤ (Instr.get 31).n ∧
    exec (.get 32) u = .next { u with fault := true, fcause := 2#2 } ∧
    step (uWith [.issue 0x1020#16]) = .next { u with fault := true, fcause := 2#2 } := by
  refine ⟨rfl, rfl, by decide, by decide, rfl, rfl⟩

theorem witness_LengthRangeRaisedExactlyByLengthCommands :
    u.fault = false ∧ takesLength (.contains 33) = true ∧ u.tb < (Instr.contains 33).n ∧ ¬ u.tb < (Instr.contains 32).n ∧
    exec (.contains 33) u = .next { u with fault := true, fcause := 3#2 } ∧
    step (uWith [.issue 0xC021#16]) = .next { u with fault := true, fcause := 3#2 } := by
  refine ⟨rfl, rfl, by decide, by decide, rfl, rfl⟩

/-- Each of the three causes. -/
theorem witness_FaultsArePreciseAndOnlyFromCommands :
    (uWith [.issue 0xD000#16]).fault = false ∧
    step (uWith [.issue 0xD000#16]) = .next { u with fault := true, fcause := 1#2 } ∧
    step (uWith [.issue 0x1020#16]) = .next { u with fault := true, fcause := 2#2 } ∧
    step (uWith [.issue 0x6021#16]) = .next { u with fault := true, fcause := 3#2 } := ⟨rfl, rfl, rfl, rfl⟩

theorem witness_OnlyResetLeavesTheFaultedState :
    (faultedWith [.issue 0x4000#16]).fault = true ∧ step (faultedWith [.issue 0x4000#16]) = .next faulted ∧
    step (faultedWith [.reset]) = .next (resetUnit faulted) := ⟨rfl, rfl, rfl⟩

theorem witness_ResetClearsTheFault : (faultedWith [.reset, .hostReadR]).pending = .reset :: [.hostReadR] := rfl

/-- An effect, a fault, a reset and an idle step. -/
theorem witness_EveryStepKeepsTheStateWellFormed :
    (uWith [.issue 0x8000#16]).wf = true ∧
    step (uWith [.issue 0x8000#16]) = .next (u.setA (buffer [0#8, 0#8, 0#8, 0#8])) ∧
    (uWith [.issue 0xD000#16]).wf = true ∧
    step (uWith [.issue 0xD000#16]) = .next { u with fault := true, fcause := 1#2 } ∧
    (faultedWith [.reset]).wf = true ∧ step (faultedWith [.reset]) = .next (resetUnit faulted) ∧
    u.wf = true ∧ step u = .next u := by
  refine ⟨by decide, rfl, by decide, rfl, by decide, rfl, by decide, rfl⟩

theorem witness_ResetStateIsWellFormed : Config.wf ⟨1⟩ = true ∧ Config.wf ⟨31⟩ = true ∧ Config.ipv6.wf = true := by decide

theorem witness_LegalWordsAreTheOpcodeRows :
    12 < 13 ∧ 12 ≠ 2 ∧ 0 < 13 ∧ decode 0xC0FF#16 = .ok (.contains 255) ∧ decode 0x21FF#16 = .ok (.set 255 true) := by decide

/-- Two units that agree on `A` alone, and on both buffers, with other values in `R` and `T`. -/
theorem witness_CommandEffectIsHistoryIndependent :
    u.fault = false ∧ { u with b := [], r := 0#8, t := true }.fault = false ∧
    u.cfg = { u with b := [], r := 0#8, t := true }.cfg ∧ u.a = { u with b := [], r := 0#8, t := true }.a ∧
    decode 0x6018#16 = .ok (.inc 24) ∧ readsB (.inc 24) = false ∧ u.b = { u with r := 0#8 }.b ∧
    decode 0x00FF#16 = .ok (.mask 255) := by decide

theorem witness_BufferValueIsBigEndian : Memory.wf u.a 4 = true ∧ 31 < 8 * 4 := by decide

theorem witness_BoundaryMasksSplitTheElementAtTheIndex : 1 % 8 ≠ 0 ∧ 7 % 8 ≠ 0 ∧ 25 % 8 ≠ 0 ∧ 7 < 8 := by decide

theorem witness_MaskComputesTheSelector : 0 < 256 ∧ 255 < 256 ∧ 7 < 8 := by decide

/-- The last operand byte, the last bit index, and the first index that does not exist. -/
theorem witness_GetReadsTheIndexedBit : 255 < 256 ∧ 31 < u.tb ∧ u.tb ≤ 32 := by decide

theorem witness_SetStoresTheBit : 255 < 256 ∧ u.wf = true ∧ 0 < u.tb ∧ 31 < u.tb ∧ u.tb ≤ 32 := by decide

theorem witness_OnStoresOne : 255 < 256 ∧ u.wf = true ∧ 0 < u.tb ∧ 31 < u.tb ∧ u.tb ≤ 32 := by decide

theorem witness_OffStoresZero : 255 < 256 ∧ u.wf = true ∧ 0 < u.tb ∧ 31 < u.tb ∧ u.tb ≤ 32 := by decide

theorem witness_FlipInvertsTheBit :
    255 < 256 ∧ u.wf = true ∧ u.fault = false ∧ 0 < u.tb ∧ 31 < u.tb ∧ 31 < 256 ∧ u.tb ≤ 32 := by decide

theorem witness_GetAfterSetReturnsTheBit : u.wf = true ∧ u.fault = false ∧ 0 < u.tb ∧ 31 < u.tb ∧ 30 < u.tb ∧ 30 ≠ 31 := by
  decide

theorem witness_BitAccessorsRelateAsStated : u.wf = true ∧ u.fault = false ∧ 0 < u.tb ∧ 31 < u.tb := by decide

/-- No guard, a guard at the first bit, a guard at the last. -/
theorem witness_IncAddsOneAndRestoresTheGuard : u.wf = true ∧ 0 ≤ u.tb ∧ 1 ≤ u.tb ∧ 32 ≤ u.tb ∧ 0 < 32 ∧ u.tb < 33 := by decide

/-- No guard and a guard at the last bit; both reports occur, with and without a guard. -/
theorem witness_IncClosedForm :
    u.wf = true ∧ 0 ≤ u.tb ∧ 32 ≤ u.tb ∧ incReport u.a 24 = false ∧ incReport u.a 32 = true ∧
    incReport (buffer [0xFF#8]) 0 = true ∧ (unitOf 1 [0xFF#8] [0#8] false).wf = true := by decide

theorem witness_IncEncodingAndRange : 255 < 256 ∧ 32 ≤ u.tb ∧ u.tb < 33 := by decide

theorem witness_IncWrapsAroundOncePerCycle :
    (unitOf 1 [0x05#8] [0#8] false).wf = true ∧ (unitOf 1 [0x05#8] [0#8] false).fault = false ∧
    0 < 1 ∧ 256 ≤ 2 ^ (unitOf 1 [0x05#8] [0#8] false).tb := by decide

theorem witness_SharedPrefixLenIsTheFirstDifference :
    255 < 256 ∧ u.wf = true ∧ 0 ≤ u.tb ∧ 32 ≤ u.tb ∧ u.tb < 33 ∧ sharedPrefix u.a u.b 4 32 < 32 := by decide

theorem witness_LeadingZeroCountFindsTheHighestBit :
    0x01#8 ≠ 0#8 ∧ 0x80#8 ≠ 0#8 ∧ u.a.elem 3 ≠ u.b.elem 3 := by decide

theorem witness_SharedPrefixLenLaws :
    u.wf = true ∧ 0 ≤ 32 ∧ 27 ≤ 32 ∧ 32 ≤ u.tb ∧ { u with b := u.a }.wf = true ∧ { u with b := u.a }.a = { u with b := u.a }.b := by
  decide

theorem witness_ZeroesfromClearsTheSuffix :
    255 < 256 ∧ u.wf = true ∧ 0 ≤ u.tb ∧ 25 ≤ u.tb ∧ 32 = u.tb ∧ u.tb < 33 ∧ 2 < elemOf 25 := by decide

theorem witness_OnesfromSetsTheSuffix :
    255 < 256 ∧ u.wf = true ∧ 0 ≤ u.tb ∧ 25 ≤ u.tb ∧ 32 = u.tb ∧ u.tb < 33 ∧ 2 < elemOf 25 := by decide

theorem witness_IsZeroesfromTestsTheSuffix : 255 < 256 ∧ u.wf = true ∧ 0 ≤ u.tb ∧ 32 ≤ u.tb ∧ u.tb < 33 := by decide

theorem witness_IsOnesfromTestsTheSuffix : 255 < 256 ∧ u.wf = true ∧ 0 ≤ u.tb ∧ 32 ≤ u.tb ∧ u.tb < 33 := by decide

theorem witness_AtFullLengthFillsDoNothing : u.wf = true ∧ u.tb = 32 := by decide

theorem witness_ZeroesfromThenIsZeroesfrom : u.wf = true ∧ u.fault = false ∧ 0 ≤ u.tb ∧ 32 ≤ u.tb := by decide

/-- Both predicates answer 1 somewhere. -/
theorem witness_RangeFillRelations :
    u.wf = true ∧ u.fault = false ∧ 0 ≤ u.tb ∧ 31 ≤ 32 ∧ 32 ≤ u.tb ∧ allZeroFrom u.a 31 = true ∧ allOnesFrom u.a 32 = true := by
  decide

theorem witness_ContainsComparesTheLeadingBits : 255 < 256 ∧ u.wf = true ∧ 0 ≤ u.tb ∧ 32 = u.tb ∧ u.tb < 33 := by decide

theorem witness_ContainmentLaws :
    u.wf = true ∧ 26 ≤ 27 ∧ 27 ≤ u.tb ∧ agreeBelow u.a u.b 26 = true ∧ { u with b := u.a }.wf = true ∧
    { u with b := u.a }.a = { u with b := u.a }.b := by decide

theorem witness_RunIsTheMovesInOrder : runMoves [.hostReadR, .hostReadT] u =
    .next { u with replies := [.resultR 0x5A#8, .resultT false] } := rfl

/-- The shared prefix of the two networks is 26 bits: below both lengths, and equal to the smaller one. -/
theorem witness_CollaboratorSequencesComputeTheirResults :
    u.wf = true ∧ u.fault = false ∧ 0 ≤ u.tb ∧ 32 ≤ u.tb ∧ 26 ≤ u.tb ∧ rAfter 0x7020 u = some 26#8 ∧ 26 < min 32 32 ∧
    rAfter 0x701A u = some 26#8 ∧ 26 = min 26 32 := by decide

/-- The smallest and the largest instance are well formed, with `TB` 8 and 248. -/
theorem witness_extreme_instances :
    (unitOf 1 [0xFE#8] [0x00#8] false).wf = true ∧ (unitOf 1 [0xFE#8] [0x00#8] false).tb = 8 ∧
    { u with cfg := ⟨31⟩, a := Memory.ofFn 31 fun _ => 0xFF#8, b := Memory.ofFn 31 fun _ => 0#8 }.wf = true ∧
    { u with cfg := ⟨31⟩ }.tb = 248 := by decide

end Sys2Proof.Tests
end

section
/-! The invariant `State.wf` (00 R8, 10 R10, R11, R19): every update of the state keeps it, hence every command, every move
of the host port and every step. -/

namespace Sys2Proof.Machine

open Sys2Proof

/-! ## The updates keep the invariant -/

/-- Every cause of a fault has a nonzero code (60 R125). -/
theorem Cause.code_ne_zero (c : Cause) : c.code ≠ 0#2 := by
  cases c <;> decide

theorem raiseFault_keeps_wf (c : Cause) {s : State} (h : s.wf = true) : (raiseFault c s).wf = true := by
  obtain ⟨hlen, ha, hb, -⟩ := (wf_iff s).1 h
  exact (wf_iff _).2 ⟨hlen, ha, hb, by simp [c.code_ne_zero]⟩

theorem resetUnit_keeps_wf {s : State} (h : s.wf = true) : (resetUnit s).wf = true := by
  obtain ⟨hlen, -, -, -⟩ := (wf_iff s).1 h
  exact (wf_iff _).2 ⟨hlen, Memory.wf_ofFn _ _, Memory.wf_ofFn _ _, by simp⟩

theorem effectOnly_keeps_wf {s s' : State} (he : effectOnly s s') (h : s.wf = true) : s'.wf = true := by
  obtain ⟨m, r, t, rfl, hm⟩ := he
  obtain ⟨hlen, ha, hb, hf⟩ := (wf_iff s).1 h
  exact (wf_iff _).2 ⟨hlen, hm.trans ha, hb, hf⟩

theorem setA_write_keeps_wf (i : Nat) (v : Byte) {s : State} (h : s.wf = true) :
    (s.setA (s.a.write i v)).wf = true :=
  effectOnly_keeps_wf (effectOnly_setA (Memory.wf_write _ _ _ _)) h

theorem setB_write_keeps_wf (i : Nat) (v : Byte) {s : State} (h : s.wf = true) :
    (s.setB (s.b.write i v)).wf = true := by
  obtain ⟨hlen, ha, hb, hf⟩ := (wf_iff s).1 h
  exact (wf_iff _).2 ⟨hlen, ha, (Memory.wf_write _ _ _ _).trans hb, hf⟩

/-- The values the host has received are no part of the unit's invariant. -/
@[simp] theorem answer_wf (s : State) (v : Reply) : (s.answer v).wf = s.wf := rfl

/-- The moves the host still wants are no part of the unit's invariant. -/
@[simp] theorem withPending_wf (s : State) (l : List Move) : (s.withPending l).wf = s.wf := rfl

/-! ## What a host access that has a move does (20 R34) -/

theorem hostWrite_next {sp : Space} {i : Nat} {v : Byte} {s s' : State} (h : hostWrite sp i v s = .next s') :
    i < s.cfg.len ∧ ((sp = .A ∧ s' = s.setA (s.a.write i v)) ∨ (sp = .B ∧ s' = s.setB (s.b.write i v))) := by
  unfold hostWrite at h
  split at h
  · rename_i hi
    cases sp <;> cases h
    · exact ⟨hi, .inl ⟨rfl, rfl⟩⟩
    · exact ⟨hi, .inr ⟨rfl, rfl⟩⟩
  · cases h

theorem hostRead_next {sp : Space} {i : Nat} {s s' : State} (h : hostRead sp i s = .next s') :
    i < s.cfg.len ∧ s' = s.answer (.element sp i ((s.buffer sp).elem i)) := by
  unfold hostRead at h
  split at h
  · rename_i hi
    cases h
    exact ⟨hi, rfl⟩
  · cases h

/-! ## Commands, moves and steps keep the invariant -/

theorem exec_keeps_wf {i : Instr} {s s' : State} (h : s.wf = true) (he : exec i s = .next s') : s'.wf = true := by
  rcases exec_outcome i s with ⟨-, hx⟩ | ⟨-, hx⟩ | ⟨e, hx, heff⟩ <;> rw [hx] at he <;> cases he
  · exact raiseFault_keeps_wf _ h
  · exact raiseFault_keeps_wf _ h
  · exact effectOnly_keeps_wf heff h

theorem issue_keeps_wf {w : CommandWord} {s s' : State} (h : s.wf = true) (hi : issue w s = .next s') :
    s'.wf = true := by
  rcases issue_cases w s with ⟨-, hx⟩ | ⟨-, -, hx⟩ | ⟨-, i, -, hx⟩ <;> rw [hx] at hi
  · cases hi; exact h
  · cases hi; exact raiseFault_keeps_wf _ h
  · exact exec_keeps_wf h hi

theorem makeMove_keeps_wf {m : Move} {s s' : State} (h : s.wf = true) (hm : makeMove m s = .next s') :
    s'.wf = true := by
  cases m with
  | hostWrite sp i v =>
    obtain ⟨-, ⟨-, rfl⟩ | ⟨-, rfl⟩⟩ := hostWrite_next hm
    · exact setA_write_keeps_wf i v h
    · exact setB_write_keeps_wf i v h
  | hostRead sp i =>
    obtain ⟨-, rfl⟩ := hostRead_next hm
    rwa [answer_wf]
  | hostReadR => cases hm; rwa [answer_wf]
  | hostReadT => cases hm; rwa [answer_wf]
  | hostReadFault => cases hm; rwa [answer_wf]
  | issue w => exact issue_keeps_wf h hm
  | reset => cases hm; exact resetUnit_keeps_wf h

theorem step_keeps_wf {s s' : State} (h : s.wf = true) (hs : step s = .next s') : s'.wf = true := by
  cases hp : s.pending with
  | nil =>
    rw [step_nil hp] at hs
    cases hs
    exact h
  | cons m rest =>
    rw [step_cons hp] at hs
    exact makeMove_keeps_wf (s := s.withPending rest) (by rwa [withPending_wf]) hs

/-- Settles O20, by the invariant of each move of the host port: a step is the host's next move, or idle. -/
theorem everyStepKeepsTheStateWellFormed : Obligations.EveryStepKeepsTheStateWellFormed := by
  unfold Obligations.EveryStepKeepsTheStateWellFormed
  intro s s' h hs
  exact step_keeps_wf h hs

end Sys2Proof.Machine
end

section
/-! A command as a function (10 R15, R20): the fault its range check raises, and what it writes to `A`, `R` and `T`. -/

namespace Sys2Proof.Machine

open Sys2Proof Sys2Proof.Claims

/-! ## The parts of a command's meaning -/

/-- The fault an index command raises, from its operand and `TB` alone (60 R121). -/
def indexFault (n tb : Nat) : Option Cause := if tb ≤ n then some .indexRange else none

/-- The fault a length command raises, from its operand and `TB` alone (60 R122). -/
def lengthFault (n tb : Nat) : Option Cause := if tb < n then some .lengthRange else none

/-- The fault a command raises in place of its effect, if any. -/
def rangeFault (i : Instr) (tb : Nat) : Option Cause :=
  match i with
  | .mask _ => none
  | .get n | .set n _ | .on n | .off n | .flip n => indexFault n tb
  | .inc n | .sharedPrefixLen n | .zeroesfrom n | .onesfrom n | .isZeroesfrom n | .isOnesfrom n | .contains n =>
    lengthFault n tb

/-- The content a command writes to buffer `A`, if it writes one. -/
def writtenA (i : Instr) (a : Memory) : Option Memory :=
  match i with
  | .set n bit => some (if bit = true then turnBitOn a n else turnBitOff a n)
  | .on n => some (turnBitOn a n)
  | .off n => some (turnBitOff a n)
  | .flip n => some (invertBit a n)
  | .inc n => some (incBuffer a n)
  | .zeroesfrom n => some (zeroFrom a n)
  | .onesfrom n => some (onesFrom a n)
  | .mask _ | .get _ | .sharedPrefixLen _ | .isZeroesfrom _ | .isOnesfrom _ | .contains _ => none

/-- The value a command writes to `R`, if it writes one. -/
def writtenR (i : Instr) (a b : Memory) (len : Nat) : Option Byte :=
  match i with
  | .mask n => some (maskOf n)
  | .sharedPrefixLen n => some (BitVec.ofNat 8 (sharedPrefix a b len n))
  | .get _ | .set _ _ | .on _ | .off _ | .flip _ | .inc _ | .zeroesfrom _ | .onesfrom _ | .isZeroesfrom _
  | .isOnesfrom _ | .contains _ => none

/-- The value a command writes to `T`, if it writes one. -/
def writtenT (i : Instr) (a b : Memory) : Option Bool :=
  match i with
  | .get n => some (bitTest a n)
  | .inc n => some (incReport a n)
  | .isZeroesfrom n => some (allZeroFrom a n)
  | .isOnesfrom n => some (allOnesFrom a n)
  | .contains n => some (agreeBelow a b n)
  | .mask _ | .set _ _ | .on _ | .off _ | .flip _ | .sharedPrefixLen _ | .zeroesfrom _ | .onesfrom _ => none

/-- The state with everything the command writes put in. -/
def effectOf (i : Instr) (s : State) : State :=
  { s with
    a := (writtenA i s.a).getD s.a
    r := (writtenR i s.a s.b s.cfg.len).getD s.r
    t := (writtenT i s.a s.b).getD s.t }

/-- The state a command ends in: its fault entry or its effect. -/
def afterExec (i : Instr) (s : State) : State := (rangeFault i s.tb).elim (effectOf i s) (raiseFault · s)

/-! ## `exec` is made of these parts -/

theorem whenIndexInRange_eq (n : Nat) (s e : State) :
    whenIndexInRange n s e = .next ((indexFault n s.tb).elim e (raiseFault · s)) := by
  unfold whenIndexInRange indexFault
  split <;> rfl

theorem whenLengthInRange_eq (n : Nat) (s e : State) :
    whenLengthInRange n s e = .next ((lengthFault n s.tb).elim e (raiseFault · s)) := by
  unfold whenLengthInRange lengthFault
  split <;> rfl

theorem exec_eq_afterExec (i : Instr) (s : State) : exec i s = .next (afterExec i s) := by
  cases i with
  | mask n => rfl
  | get n | set n bit | on n | off n | flip n => exact whenIndexInRange_eq _ _ _
  | inc n | sharedPrefixLen n | zeroesfrom n | onesfrom n | isZeroesfrom n | isOnesfrom n | contains n =>
    exact whenLengthInRange_eq _ _ _

theorem afterExec_of_fault {i : Instr} {s : State} {c : Cause} (h : rangeFault i s.tb = some c) :
    afterExec i s = raiseFault c s := by
  rw [afterExec, h, Option.elim_some]

theorem afterExec_of_inRange {i : Instr} {s : State} (h : rangeFault i s.tb = none) :
    afterExec i s = effectOf i s := by
  rw [afterExec, h, Option.elim_none]

@[simp] theorem effectOf_cfg (i : Instr) (s : State) : (effectOf i s).cfg = s.cfg := rfl
@[simp] theorem effectOf_a (i : Instr) (s : State) : (effectOf i s).a = (writtenA i s.a).getD s.a := rfl
@[simp] theorem effectOf_b (i : Instr) (s : State) : (effectOf i s).b = s.b := rfl
@[simp] theorem effectOf_r (i : Instr) (s : State) :
    (effectOf i s).r = (writtenR i s.a s.b s.cfg.len).getD s.r := rfl
@[simp] theorem effectOf_t (i : Instr) (s : State) : (effectOf i s).t = (writtenT i s.a s.b).getD s.t := rfl
@[simp] theorem effectOf_fault (i : Instr) (s : State) : (effectOf i s).fault = s.fault := rfl
@[simp] theorem effectOf_fcause (i : Instr) (s : State) : (effectOf i s).fcause = s.fcause := rfl
@[simp] theorem effectOf_resets (i : Instr) (s : State) : (effectOf i s).resets = s.resets := rfl
@[simp] theorem effectOf_pending (i : Instr) (s : State) : (effectOf i s).pending = s.pending := rfl
@[simp] theorem effectOf_replies (i : Instr) (s : State) : (effectOf i s).replies = s.replies := rfl

/-! ## Which commands write what, and which read `B` -/

theorem writtenA_eq_none_iff (i : Instr) (a : Memory) : writtenA i a = none ↔ writesA i = false := by
  cases i <;> simp [writtenA, writesA]

theorem writtenR_eq_none_iff (i : Instr) (a b : Memory) (len : Nat) :
    writtenR i a b len = none ↔ writesR i = false := by
  cases i <;> simp [writtenR, writesR]

theorem writtenT_eq_none_iff (i : Instr) (a b : Memory) : writtenT i a b = none ↔ writesT i = false := by
  cases i <;> simp [writtenT, writesT]

theorem writtenR_congr_b {i : Instr} (h : readsB i = false) (a b b' : Memory) (len : Nat) :
    writtenR i a b len = writtenR i a b' len := by
  cases i with
  | sharedPrefixLen n => cases h
  | _ => rfl

theorem writtenT_congr_b {i : Instr} (h : readsB i = false) (a b b' : Memory) :
    writtenT i a b = writtenT i a b' := by
  cases i with
  | contains n => cases h
  | _ => rfl

/-! ## The frame of every command (10 R15) -/

/-- Settles O22, by the two ways a command ends: a fault entry changes `FAULT` and `FCAUSE` alone, and the effect
writes a field only if the command's rule names it. -/
theorem commandsWriteOnlyWhatTheirRuleNames : Obligations.CommandsWriteOnlyWhatTheirRuleNames := by
  unfold Obligations.CommandsWriteOnlyWhatTheirRuleNames
  intro i s
  refine ⟨afterExec i s, exec_eq_afterExec i s, ?_⟩
  cases hc : rangeFault i s.tb with
  | some c => simp [afterExec_of_fault hc]
  | none =>
    rw [afterExec_of_inRange hc]
    refine ⟨rfl, rfl, rfl, rfl, rfl, fun hA => ?_, fun hR => ?_, fun hT => ?_, .inl ⟨rfl, rfl⟩⟩
    · rw [effectOf_a, (writtenA_eq_none_iff i _).2 hA, Option.getD_none]
    · rw [effectOf_r, (writtenR_eq_none_iff i _ _ _).2 hR, Option.getD_none]
    · rw [effectOf_t, (writtenT_eq_none_iff i _ _).2 hT, Option.getD_none]

/-! ## The effect of a command depends on the word, `A`, `B` and `LEN` alone (10 R20) -/

theorem issue_of_decode_ok {w : CommandWord} {i : Instr} {s : State} (hf : s.fault = false)
    (hd : decode w = .ok i) : issue w s = exec i s := by
  simp [issue, hf, hd]

theorem issue_of_decode_error {w : CommandWord} {e : IllegalWord} {s : State} (hf : s.fault = false)
    (hd : decode w = .error e) : issue w s = .next (raiseFault .illegalCommand s) := by
  simp [issue, hf, hd]

/-- A register that is given the same write, or none, in two states is unchanged in both or equal after. -/
theorem unchanged_or_same_of_written {α : Type} (v : Option α) (x y : α) :
    (v.getD x = x ∧ v.getD y = y) ∨ v.getD x = v.getD y := by
  cases v with
  | none => exact .inl ⟨rfl, rfl⟩
  | some _ => exact .inr rfl

theorem sameEffect_raiseFault (c : Cause) (s u : State) : sameEffect s (raiseFault c s) u (raiseFault c u) :=
  ⟨rfl, .inr rfl, .inl ⟨rfl, rfl⟩, .inl ⟨rfl, rfl⟩⟩

theorem sameEffect_effectOf {i : Instr} {s u : State} (hf : s.fault = u.fault)
    (hR : writtenR i s.a s.b s.cfg.len = writtenR i u.a u.b u.cfg.len)
    (hT : writtenT i s.a s.b = writtenT i u.a u.b) : sameEffect s (effectOf i s) u (effectOf i u) := by
  refine ⟨hf, .inl ⟨rfl, rfl⟩, ?_, ?_⟩
  · rw [effectOf_r, effectOf_r, hR]
    exact unchanged_or_same_of_written _ _ _
  · rw [effectOf_t, effectOf_t, hT]
    exact unchanged_or_same_of_written _ _ _

/-- Two units that agree on `LEN`, on `A`, on `FAULT`, and on `B` if the command reads it, do the same. -/
theorem afterExec_sameEffect {i : Instr} {s u : State} (hcfg : s.cfg = u.cfg) (ha : s.a = u.a)
    (hf : s.fault = u.fault) (hb : s.b = u.b ∨ readsB i = false) :
    sameEffect s (afterExec i s) u (afterExec i u) ∧ (afterExec i s).a = (afterExec i u).a := by
  have htb : s.tb = u.tb := by rw [State.tb_eq, State.tb_eq, hcfg]
  cases hc : rangeFault i s.tb with
  | some c =>
    rw [afterExec_of_fault hc, afterExec_of_fault (htb ▸ hc)]
    exact ⟨sameEffect_raiseFault c s u, ha⟩
  | none =>
    rw [afterExec_of_inRange hc, afterExec_of_inRange (htb ▸ hc)]
    have hR : writtenR i s.a s.b s.cfg.len = writtenR i u.a u.b u.cfg.len := by
      rw [ha, hcfg]
      exact hb.elim (fun h => by rw [h]) (fun h => writtenR_congr_b h _ _ _ _)
    have hT : writtenT i s.a s.b = writtenT i u.a u.b := by
      rw [ha]
      exact hb.elim (fun h => by rw [h]) (fun h => writtenT_congr_b h _ _ _)
    exact ⟨sameEffect_effectOf hf hR hT, by rw [effectOf_a, effectOf_a, ha]⟩

/-- Settles O23: an illegal word raises the same fault in both units, a legal one is a command whose fault and whose
written values are functions of the word, `A`, `B` and `LEN`; `mask` writes the selector of its operand. -/
theorem commandEffectIsHistoryIndependent : Obligations.CommandEffectIsHistoryIndependent := by
  unfold Obligations.CommandEffectIsHistoryIndependent
  refine ⟨fun w s u hs hu hcfg ha hb => ?_, fun w n s u hs hu hd => ?_⟩
  · cases hd : decode w with
    | error e =>
      exact ⟨_, _, issue_of_decode_error hs hd, issue_of_decode_error hu hd, sameEffect_raiseFault _ s u, ha⟩
    | ok i =>
      have hb' : s.b = u.b ∨ readsB i = false := hb.imp id fun h => h i hd
      exact ⟨_, _, (issue_of_decode_ok hs hd).trans (exec_eq_afterExec i s),
        (issue_of_decode_ok hu hd).trans (exec_eq_afterExec i u),
        afterExec_sameEffect hcfg ha (hs.trans hu.symm) hb'⟩
  · exact ⟨maskOf n, issue_of_decode_ok hs hd, issue_of_decode_ok hu hd⟩

/-! ## `FAULT` is sticky (10 R18, 60 R128) -/

/-- The unit ignores every command while `FAULT = 1` (60 R126). -/
theorem issue_of_faulted {s : State} (hf : s.fault = true) (w : CommandWord) : issue w s = .next s := by
  simp [issue, hf]

theorem makeMove_keeps_fault {m : Move} {s s' : State} (hf : s.fault = true) (hm : makeMove m s = .next s')
    (hr : m ≠ .reset) : s'.fault = true ∧ s'.fcause = s.fcause := by
  cases m with
  | hostWrite sp i v => obtain ⟨-, ⟨-, rfl⟩ | ⟨-, rfl⟩⟩ := hostWrite_next hm <;> exact ⟨hf, rfl⟩
  | hostRead sp i =>
    obtain ⟨-, rfl⟩ := hostRead_next hm
    exact ⟨hf, rfl⟩
  | hostReadR | hostReadT | hostReadFault =>
    cases hm
    exact ⟨hf, rfl⟩
  | issue w =>
    cases (issue_of_faulted hf w).symm.trans hm
    exact ⟨hf, rfl⟩
  | reset => exact absurd rfl hr

/-- Settles O18: a step is idle, the host's Reset, or another move, which keeps the fault. -/
theorem onlyResetLeavesTheFaultedState : Obligations.OnlyResetLeavesTheFaultedState := by
  unfold Obligations.OnlyResetLeavesTheFaultedState
  intro s s' hf hs
  cases hp : s.pending with
  | nil =>
    rw [step_nil hp] at hs
    cases hs
    exact .inl ⟨hf, rfl⟩
  | cons m rest =>
    rw [step_cons hp] at hs
    by_cases hr : m = .reset
    · subst hr
      cases hs
      exact .inr ⟨rest, rfl, rfl, rfl⟩
    · exact .inl (makeMove_keeps_fault (s := s.withPending rest) hf hs hr)

/-! ## The reset state (10 R22, 70 R140) -/

theorem resetOf_wf {c : Config} (h : c.wf = true) : (State.resetOf c).wf = true :=
  (wf_iff _).2 ⟨h, Memory.wf_ofFn _ _, Memory.wf_ofFn _ _, by simp⟩

/-- Settles O21: power-on leaves buffers of `LEN` elements and no fault, for every admitted `LEN`, 4 among them. -/
theorem resetStateIsWellFormed : Obligations.ResetStateIsWellFormed := by
  unfold Obligations.ResetStateIsWellFormed
  have hipv4 : Config.ipv4.wf = true := by decide
  exact ⟨fun c h => ⟨resetOf_wf h, rfl, rfl, rfl⟩, resetOf_wf hipv4, rfl, rfl⟩

end Sys2Proof.Machine
end

section
/-! The host port (20 R33, R34, R37, R40): what each move does, when a step is refused, and that
elements are independent of each other. -/

namespace Sys2Proof.Machine

open Sys2Proof

/-! ## Writing elements of a buffer -/

/-- The latest write to an element is the one that counts. -/
theorem Memory.write_write_same (m : Memory) (i : Nat) (v w : Byte) : (m.write i v).write i w = m.write i w := by
  simp only [Memory.write, Memory.modify, List.map_map]
  refine List.map_congr_left fun c _ => ?_
  by_cases h : c.1 = i <;> simp [h]

theorem Memory.write_comm (m : Memory) {i j : Nat} (hij : i ≠ j) (v w : Byte) :
    (m.write i v).write j w = (m.write j w).write i v := by
  simp only [Memory.write, Memory.modify, List.map_map]
  refine List.map_congr_left fun c _ => ?_
  by_cases hi : c.1 = i
  · simp [hi, hij]
  · by_cases hj : c.1 = j <;> simp [hi, hj, hij.symm]

/-! ## Host accesses -/

/-- The state a host write leaves: `sp[i] <- v`. -/
def State.writeElem (s : State) (sp : Space) (i : Nat) (v : Byte) : State :=
  match sp with
  | .A => s.setA (s.a.write i v)
  | .B => s.setB (s.b.write i v)

theorem hostWrite_of_lt {i : Nat} {s : State} (hi : i < s.cfg.len) (sp : Space) (v : Byte) :
    hostWrite sp i v s = .next (s.writeElem sp i v) := by
  cases sp <;> simp [hostWrite, hi, State.writeElem]

theorem hostWrite_of_ge {i : Nat} {s : State} (hi : s.cfg.len ≤ i) (sp : Space) (v : Byte) :
    hostWrite sp i v s = .refused (.noSuchElement sp i) := by
  simp [hostWrite, hi.not_gt]

theorem hostRead_of_lt {i : Nat} {s : State} (hi : i < s.cfg.len) (sp : Space) :
    hostRead sp i s = .next (s.answer (.element sp i ((s.buffer sp).elem i))) := by
  simp [hostRead, hi]

theorem hostRead_of_ge {i : Nat} {s : State} (hi : s.cfg.len ≤ i) (sp : Space) :
    hostRead sp i s = .refused (.noSuchElement sp i) := by
  simp [hostRead, hi.not_gt]

@[simp] theorem State.writeElem_cfg (s : State) (sp : Space) (i : Nat) (v : Byte) :
    (s.writeElem sp i v).cfg = s.cfg := by
  cases sp <;> rfl

@[simp] theorem State.writeElem_replies (s : State) (sp : Space) (i : Nat) (v : Byte) :
    (s.writeElem sp i v).replies = s.replies := by
  cases sp <;> rfl

@[simp] theorem State.answer_buffer (s : State) (x : Reply) (sp : Space) : (s.answer x).buffer sp = s.buffer sp := by
  cases sp <;> rfl

theorem State.buffer_writeElem_same (s : State) (sp : Space) (i : Nat) (v : Byte) :
    (s.writeElem sp i v).buffer sp = (s.buffer sp).write i v := by
  cases sp <;> rfl

theorem State.wf_buffer {s : State} (h : s.wf = true) (sp : Space) : Memory.wf (s.buffer sp) s.cfg.len = true := by
  obtain ⟨-, ha, hb, -⟩ := (wf_iff s).1 h
  cases sp
  · exact ha
  · exact hb

theorem State.writeElem_writeElem_same (s : State) (sp : Space) (i : Nat) (v w : Byte) :
    (s.writeElem sp i v).writeElem sp i w = s.writeElem sp i w := by
  cases sp <;> simp [State.writeElem, State.setA, State.setB, Memory.write_write_same]

/-- Writes to different spaces touch different buffers, writes to different elements different cells (20 R33, R40). -/
theorem State.writeElem_comm (s : State) {sp sp' : Space} {i j : Nat} (h : sp ≠ sp' ∨ i ≠ j) (v w : Byte) :
    (s.writeElem sp i v).writeElem sp' j w = (s.writeElem sp' j w).writeElem sp i v := by
  cases sp <;> cases sp'
  case A.B | B.A => rfl
  case A.A | B.B =>
    have hij : i ≠ j := h.resolve_left fun hne => hne rfl
    simp [State.writeElem, State.setA, State.setB, Memory.write_comm _ hij]

theorem State.answer_answer (s : State) (x y : Reply) :
    (s.answer x).answer y = { s with replies := s.replies ++ [x, y] } := by
  simp [State.answer]

/-! ## When a move is refused (20 R34) -/

/-- Every issued word has a next state, in every state (60 R124, R127, 70 R146). -/
theorem issue_next (w : CommandWord) (s : State) : ∃ s', issue w s = .next s' := by
  rcases issue_cases w s with ⟨-, h⟩ | ⟨-, -, h⟩ | ⟨-, i, -, h⟩
  · exact ⟨_, h⟩
  · exact ⟨_, h⟩
  · exact ⟨_, h.trans (exec_eq_afterExec i s)⟩

/-- The move is a host access to element `i` of space `sp`. -/
def Move.accesses (m : Move) (sp : Space) (i : Nat) : Prop := m = .hostRead sp i ∨ ∃ v, m = .hostWrite sp i v

theorem makeMove_next_or_refused (m : Move) (s : State) :
    (∃ s', makeMove m s = .next s') ∨
      ∃ sp i, m.accesses sp i ∧ s.cfg.len ≤ i ∧ makeMove m s = .refused (.noSuchElement sp i) := by
  cases m with
  | hostWrite sp i v =>
    rcases Nat.lt_or_ge i s.cfg.len with hi | hi
    · exact .inl ⟨_, hostWrite_of_lt hi sp v⟩
    · exact .inr ⟨sp, i, .inr ⟨v, rfl⟩, hi, hostWrite_of_ge hi sp v⟩
  | hostRead sp i =>
    rcases Nat.lt_or_ge i s.cfg.len with hi | hi
    · exact .inl ⟨_, hostRead_of_lt hi sp⟩
    · exact .inr ⟨sp, i, .inl rfl, hi, hostRead_of_ge hi sp⟩
  | issue w => exact .inl (issue_next w s)
  | hostReadR | hostReadT | hostReadFault | reset => exact .inl ⟨_, rfl⟩

theorem step_next_or_refused (s : State) :
    (∃ s', step s = .next s') ∨
      ∃ m rest sp i, s.pending = m :: rest ∧ m.accesses sp i ∧ s.cfg.len ≤ i ∧
        step s = .refused (.noSuchElement sp i) := by
  cases hp : s.pending with
  | nil => exact .inl ⟨s, step_nil hp⟩
  | cons m rest =>
    rw [step_cons hp]
    rcases makeMove_next_or_refused m { s with pending := rest } with hn | ⟨sp, i, hm, hi, hr⟩
    · exact .inl hn
    · exact .inr ⟨m, rest, sp, i, rfl, hm, hi, hr⟩

/-- Settles O11: a step is the host's next move or idle, and the only moves without a next state are the accesses at
an index `>= LEN`. -/
theorem stepIsRefusedOnlyForAbsentElements : Obligations.StepIsRefusedOnlyForAbsentElements := by
  unfold Obligations.StepIsRefusedOnlyForAbsentElements
  intro s
  refine ⟨fun f => (nomatch f), fun q hq => ?_⟩
  rcases step_next_or_refused s with ⟨s', hn⟩ | ⟨m, rest, sp, i, hp, hm, hi, hr⟩
  · cases hn.symm.trans hq
  · cases hr.symm.trans hq
    refine ⟨sp, i, rest, rfl, hi, ?_⟩
    rcases hm with rfl | ⟨v, rfl⟩
    · exact .inl hp
    · exact .inr ⟨v, hp⟩

/-! ## The moves of the port, one by one (20 R34) -/

theorem step_hostWrite {s : State} {sp : Space} {i : Nat} {v : Byte} {rest : List Move}
    (hp : s.pending = .hostWrite sp i v :: rest) (hi : i < s.cfg.len) :
    step s = .next ((s.withPending rest).writeElem sp i v) :=
  (step_cons hp).trans (hostWrite_of_lt (s := s.withPending rest) hi sp v)

theorem step_hostRead {s : State} {sp : Space} {i : Nat} {rest : List Move}
    (hp : s.pending = .hostRead sp i :: rest) (hi : i < s.cfg.len) :
    step s = .next ((s.withPending rest).answer (.element sp i ((s.buffer sp).elem i))) := by
  refine (step_cons hp).trans ((hostRead_of_lt (s := s.withPending rest) hi sp).trans ?_)
  cases sp <;> rfl

theorem step_absentElement {s : State} {m : Move} {sp : Space} {i : Nat} {rest : List Move}
    (hp : s.pending = m :: rest) (hm : m.accesses sp i) (hi : s.cfg.len ≤ i) :
    step s = .refused (.noSuchElement sp i) := by
  rw [step_cons hp]
  rcases hm with rfl | ⟨v, rfl⟩
  · exact hostRead_of_ge (s := s.withPending rest) hi sp
  · exact hostWrite_of_ge (s := s.withPending rest) hi sp v

/-- Settles O12, move by move: a step is the host's next move. -/
theorem hostPortMoves : Obligations.HostPortMoves := by
  unfold Obligations.HostPortMoves
  intro s rest hwf
  obtain ⟨-, ha, hb, -⟩ := (wf_iff s).1 hwf
  refine ⟨fun i v hp hi => ?_, fun i v hp hi => ?_, fun i hp hi => step_hostRead hp hi,
    fun i hp hi => step_hostRead hp hi, fun sp i v hp hi => ?_, step_cons, step_cons, step_cons,
    fun w hp => step_cons hp, step_cons⟩
  · exact ⟨s.a.write i v, step_hostWrite hp hi, (Memory.wf_write _ _ _ _).trans ha,
      Memory.elem_write_same v ha hi, fun j hj => Memory.elem_write_other s.a v hj⟩
  · exact ⟨s.b.write i v, step_hostWrite hp hi, (Memory.wf_write _ _ _ _).trans hb,
      Memory.elem_write_same v hb hi, fun j hj => Memory.elem_write_other s.b v hj⟩
  · rcases hp with hp | hp
    · exact step_absentElement hp (.inr ⟨v, rfl⟩) hi
    · exact step_absentElement hp (.inl rfl) hi

/-! ## Runs of host accesses (20 R37, R40) -/

theorem runMoves_hostWrite {s : State} {i : Nat} (hi : i < s.cfg.len) (sp : Space) (v : Byte) (rest : List Move) :
    runMoves (.hostWrite sp i v :: rest) s = runMoves rest (s.writeElem sp i v) :=
  runMoves_cons (hostWrite_of_lt hi sp v)

theorem runMoves_hostRead {s : State} {i : Nat} (hi : i < s.cfg.len) (sp : Space) (rest : List Move) :
    runMoves (.hostRead sp i :: rest) s =
      runMoves rest (s.answer (.element sp i ((s.buffer sp).elem i))) :=
  runMoves_cons (hostRead_of_lt hi sp)

theorem runMoves_hostWrite_pair {s : State} {i j : Nat} (hi : i < s.cfg.len) (hj : j < s.cfg.len)
    (sp sp' : Space) (v w : Byte) :
    runMoves [.hostWrite sp i v, .hostWrite sp' j w] s = .next ((s.writeElem sp i v).writeElem sp' j w) := by
  rw [runMoves_hostWrite hi, runMoves_hostWrite (by rwa [State.writeElem_cfg]), runMoves]

/-- Settles O13: the run of two writes is the two buffer updates, which are idempotent and commute. -/
theorem hostWritesAreIdempotentAndCommute : Obligations.HostWritesAreIdempotentAndCommute := by
  unfold Obligations.HostWritesAreIdempotentAndCommute
  intro s sp sp' i j v w hi hj
  refine ⟨?_, fun hne => ?_⟩
  · rw [runMoves_hostWrite_pair hi hi, State.writeElem_writeElem_same, runMoves_hostWrite hi, runMoves]
  · rw [runMoves_hostWrite_pair hi hj, runMoves_hostWrite_pair hj hi, State.writeElem_comm s hne]

/-- Settles O14: both reads find the element the write stored, and an answer changes no buffer. -/
theorem hostReadReturnsTheLatestWrite : Obligations.HostReadReturnsTheLatestWrite := by
  unfold Obligations.HostReadReturnsTheLatestWrite
  intro s sp i v hwf hi
  have helem : ((s.writeElem sp i v).buffer sp).elem i = v := by
    rw [State.buffer_writeElem_same, Memory.elem_write_same v (State.wf_buffer hwf sp) hi]
  refine ⟨s.writeElem sp i v, by rw [runMoves_hostWrite hi, runMoves], ?_⟩
  rw [runMoves_hostWrite hi, runMoves_hostRead (by rwa [State.writeElem_cfg]),
    runMoves_hostRead (by rwa [State.answer_cfg, State.writeElem_cfg]), runMoves, State.answer_buffer, helem,
    State.answer_answer, State.writeElem_replies]

end Sys2Proof.Machine
end

section
/-! Buffers as big-endian data (20 R30, R31): where a bit index lies, and the weight of elements and bits. -/

namespace Sys2Proof.Machine

open Sys2Proof

/-- Settles O24: `Memory.bit` looks up the element and position that 20 R30 names. -/
theorem bitIndexIsBigEndian : Obligations.BitIndexIsBigEndian := by
  unfold Obligations.BitIndexIsBigEndian
  intro m i
  rw [Memory.bit, elemOf, posOf]

/-- The number of a list of cells, each weighed by the cells after it. -/
theorem val_eq_sum_cells (m : Memory) :
    m.val = ∑ i : Fin m.length, (m[i]).2.toNat * 256 ^ (m.length - 1 - i) := by
  induction m with
  | nil => rfl
  | cons c rest ih =>
    rw [val_cons, ih]
    simp [Fin.sum_univ_succ, Nat.sub_sub, Nat.add_comm]

/-- The sum of 20 R31. -/
theorem val_eq_sum_elem {m : Memory} {len : Nat} (h : Memory.wf m len = true) :
    m.val = ∑ i ∈ Finset.range len, (m.elem i).toNat * 256 ^ (len - 1 - i) := by
  obtain rfl := Memory.length_of_wf h
  rw [val_eq_sum_cells, ← Fin.sum_univ_eq_sum_range fun i => (m.elem i).toNat * 256 ^ (m.length - 1 - i)]
  refine Finset.sum_congr rfl fun i _ => ?_
  rw [Fin.getElem_fin, Memory.getElem_of_wf h i.isLt]

theorem pow_256_eq (k : Nat) : 256 ^ k = 2 ^ (8 * k) := by
  rw [pow_mul]; rfl

theorem val_lt_of_wf {m : Memory} {len : Nat} (h : Memory.wf m len = true) : m.val < 2 ^ (8 * len) := by
  have hlt := val_lt m
  rwa [Memory.length_of_wf h, pow_256_eq] at hlt

/-- An element is eight bits of the whole number. -/
theorem elem_toNat_eq_val {m : Memory} {len i : Nat} (h : Memory.wf m len = true) (hi : i < len) :
    (m.elem i).toNat = m.val / 2 ^ (8 * (len - 1 - i)) % 2 ^ 8 := by
  obtain rfl := Memory.length_of_wf h
  rw [← pow_256_eq, show 2 ^ 8 = 256 from rfl, ← cell_of_val m i hi, Memory.getElem_of_wf h hi]

/-- Array bit index `i` has weight `2 ^ (TB-1-i)`. -/
theorem bit_eq_testBit_val {m : Memory} {len i : Nat} (h : Memory.wf m len = true) (hi : i < 8 * len) :
    m.bit i = m.val.testBit (8 * len - 1 - i) := by
  have hpos : 7 - i % 8 < 8 := by omega
  have hweight : 8 * (len - 1 - i / 8) + (7 - i % 8) = 8 * len - 1 - i := by omega
  calc m.bit i
      = (m.elem (i / 8)).toNat.testBit (7 - i % 8) := rfl
    _ = m.val.testBit (8 * len - 1 - i) := by
      rw [elem_toNat_eq_val h (by omega), Nat.testBit_mod_two_pow, Nat.testBit_div_two_pow, decide_eq_true hpos,
        Bool.true_and, Nat.add_comm, hweight]

/-- Settles O25: the fold that `Memory.val` is weighs each element by the ones after it, so that elements are the
base-256 digits and array bits the binary digits, the first the most significant. -/
theorem bufferValueIsBigEndian : Obligations.BufferValueIsBigEndian := by
  unfold Obligations.BufferValueIsBigEndian
  intro m len h
  exact ⟨val_eq_sum_elem h, val_lt_of_wf h, fun i hi => bit_eq_testBit_val h hi⟩

end Sys2Proof.Machine
end

section
/-! The command word as a number (30 R51, R59): its fields, the words that are legal (R52, R55, R56), and that decoding
and encoding undo each other. -/

namespace Sys2Proof

/-! ## The fields of a word are digits of its number -/

theorem opField_eq (w : CommandWord) : opField w = w.toNat / 4096 := by
  have hw := w.isLt
  rw [opField, BitVec.extractLsb'_toNat, Nat.shiftRight_eq_div_pow]
  omega

theorem zeroField_toNat (w : CommandWord) : (zeroField w).toNat = w.toNat / 512 % 8 := by
  rw [zeroField, BitVec.extractLsb'_toNat, Nat.shiftRight_eq_div_pow]

theorem zeroField_eq_zero_iff (w : CommandWord) : zeroField w = 0#3 ↔ w.toNat / 512 % 8 = 0 := by
  rw [← BitVec.toNat_inj, zeroField_toNat, BitVec.toNat_zero]

theorem bitOperand_toNat (w : CommandWord) : (bitOperand w).toNat = w.toNat / 256 % 2 := by
  rw [bitOperand, BitVec.getLsbD, Nat.toNat_testBit]

theorem bitOperand_eq_iff (w : CommandWord) (bit : Bool) : bit = bitOperand w ↔ bit.toNat = w.toNat / 256 % 2 := by
  rw [← bitOperand_toNat]
  cases bit <;> cases bitOperand w <;> decide

theorem nOperand_eq (w : CommandWord) : nOperand w = w.toNat % 256 := by
  rw [nOperand, BitVec.extractLsb'_toNat, Nat.shiftRight_zero]

/-- The sum form of 30 R59: `CW = (OP << 12) | (BIT << 8) | N`. -/
theorem encode_toNat (i : Instr) :
    (encode i).toNat = i.opNumber % 16 * 4096 + i.bitField.toNat * 256 + i.n % 256 := by
  rw [encode, BitVec.toNat_append, BitVec.toNat_append, BitVec.toNat_append,
    ← Nat.shiftLeft_add_eq_or_of_lt (BitVec.isLt _), ← Nat.shiftLeft_add_eq_or_of_lt (BitVec.isLt _),
    ← Nat.shiftLeft_add_eq_or_of_lt (BitVec.isLt _)]
  simp only [BitVec.toNat_ofNat, BitVec.toNat_ofBool, Nat.shiftLeft_eq]
  omega

/-! ## The operation map (30 R53) -/

theorem opNumber_lt (i : Instr) : i.opNumber < 13 := by
  cases i <;> simp [Instr.opNumber]

theorem opNumber_eq_two_iff (i : Instr) : i.opNumber = 2 ↔ ∃ n bit, i = .set n bit := by
  cases i <;> simp [Instr.opNumber]

theorem opNumber_of_bitField {i : Instr} (h : i.bitField = true) : i.opNumber = 2 := by
  cases i with
  | set n bit => rfl
  | _ => cases h

/-- The operation map names the command with that number and those operands; a bit that is no operand is dropped. -/
theorem operation_eq_some_iff (op n : Nat) (bit : Bool) (i : Instr) :
    operation op n bit = some i ↔ i.opNumber = op ∧ i.n = n ∧ i.bitField = (decide (op = 2) && bit) := by
  constructor
  · intro h
    unfold operation at h
    split at h <;> cases h <;> exact ⟨rfl, rfl, rfl⟩
  · rintro ⟨rfl, rfl, hbit⟩
    cases i with
    | set n b => cases (show b = bit from hbit); rfl
    | _ => rfl

theorem operation_isSome_iff (op n : Nat) (bit : Bool) : (∃ i, operation op n bit = some i) ↔ op < 13 := by
  constructor
  · rintro ⟨i, hi⟩
    obtain ⟨rfl, -, -⟩ := (operation_eq_some_iff _ _ _ _).1 hi
    exact opNumber_lt i
  · intro h
    interval_cases op <;> exact ⟨_, rfl⟩

/-! ## Which words decode, and to what (30 R55, R56) -/

/-- The legal words, and what each decodes to. -/
theorem decode_ok_iff (w : CommandWord) (i : Instr) :
    decode w = .ok i ↔ operation (opField w) (nOperand w) (bitOperand w) = some i ∧ zeroField w = 0#3 ∧
      ¬ (opField w ≠ 2 ∧ bitOperand w = true) := by
  unfold decode
  cases operation (opField w) (nOperand w) (bitOperand w) with
  | none => simp
  | some j =>
    by_cases hz : zeroField w = 0#3
    · by_cases hbit : opField w ≠ 2 ∧ bitOperand w = true
      · simp [hz, hbit]
      · simp only [hz, hbit, ne_eq, not_true_eq_false, if_false, Except.ok.injEq, Option.some.injEq, not_false_eq_true,
          and_true]
    · simp [hz]

theorem decode_error_iff_not_ok (w : CommandWord) : (∃ e, decode w = .error e) ↔ ¬ ∃ i, decode w = .ok i := by
  cases decode w <;> simp

/-- The three ways a word is illegal (30 R56), as fields. -/
theorem decode_error_iff (w : CommandWord) :
    (∃ e, decode w = .error e) ↔
      13 ≤ opField w ∨ zeroField w ≠ 0#3 ∨ (opField w ≠ 2 ∧ bitOperand w = true) := by
  simp only [decode_error_iff_not_ok, decode_ok_iff, exists_and_right, operation_isSome_iff]
  rw [not_and_or, not_and_or, not_not, Nat.not_lt]

/-- A word decodes to a command exactly when its `ZERO` field is zero and its other fields are the command's. -/
theorem decode_ok_iff_fields (w : CommandWord) (i : Instr) :
    decode w = .ok i ↔
      zeroField w = 0#3 ∧ i.opNumber = opField w ∧ i.n = nOperand w ∧ i.bitField = bitOperand w := by
  rw [decode_ok_iff, operation_eq_some_iff]
  constructor
  · rintro ⟨⟨hop, hn, hbit⟩, hz, hset⟩
    refine ⟨hz, hop, hn, hbit.trans ?_⟩
    cases hb : bitOperand w with
    | false => rw [Bool.and_false]
    | true => simpa [hb] using hset
  · rintro ⟨hz, hop, hn, hbit⟩
    have hset : bitOperand w = true → opField w = 2 := fun hb => by
      rw [← hop, opNumber_of_bitField (hbit.trans hb)]
    refine ⟨⟨hop, hn, hbit.trans ?_⟩, hz, fun h => h.1 (hset h.2)⟩
    cases hb : bitOperand w with
    | false => rw [Bool.and_false]
    | true => simp [hset hb]

/-- Decoding and encoding undo each other: the legal words are the words of the well-formed commands. -/
theorem decode_eq_ok_iff_encode (w : CommandWord) (i : Instr) :
    decode w = .ok i ↔ i.wellFormed = true ∧ encode i = w := by
  have hop := opNumber_lt i
  rw [decode_ok_iff_fields, zeroField_eq_zero_iff, opField_eq, nOperand_eq, bitOperand_eq_iff,
    Instr.wellFormed, decide_eq_true_eq, ← BitVec.toNat_inj (x := encode i), encode_toNat]
  have hbit := i.bitField.toNat_lt
  omega

/-- Settles O1: the word of a well-formed command carries the command's own fields. -/
theorem decodeOfEncodeIsTheCommand : Obligations.DecodeOfEncodeIsTheCommand := by
  unfold Obligations.DecodeOfEncodeIsTheCommand
  intro i hwf
  exact (decode_eq_ok_iff_encode _ i).2 ⟨hwf, rfl⟩

/-- Settles O2: a legal word has no bits but those of its command's fields. -/
theorem encodeOfDecodeIsTheWord : Obligations.EncodeOfDecodeIsTheWord := by
  unfold Obligations.EncodeOfDecodeIsTheWord
  intro w i hd
  exact (decode_eq_ok_iff_encode w i).1 hd

/-! ## Fields as masks (30 R52, R56) -/

/-- A mask of `k` ones from position `lo` on selects one digit of the number. -/
theorem and_mask_eq (x k lo : Nat) : x &&& (2 ^ k - 1) <<< lo = x / 2 ^ lo % 2 ^ k * 2 ^ lo := by
  rw [← Nat.shiftLeft_eq, ← Nat.and_two_pow_sub_one_eq_mod, Nat.shiftLeft_and_distrib, ← Nat.shiftRight_eq_div_pow]
  apply Nat.eq_of_testBit_eq
  intro i
  by_cases hi : lo ≤ i <;> simp [Nat.testBit_shiftLeft, hi]

/-- A mask of `k` ones from position `lo` on reads the same of a word. -/
theorem toNat_and_mask (w : CommandWord) (k lo : Nat) (h : (2 ^ k - 1) <<< lo < 2 ^ 16) :
    (w &&& BitVec.ofNat 16 ((2 ^ k - 1) <<< lo)).toNat = w.toNat / 2 ^ lo % 2 ^ k * 2 ^ lo := by
  rw [BitVec.toNat_and, BitVec.toNat_ofNat, Nat.mod_eq_of_lt h, and_mask_eq]

/-- The row of a format `N` command: its operation number, `ZERO` and `BIT` zero, any `N`. -/
theorem and_FF00_eq_iff (w : CommandWord) {op : Nat} (hop : op < 16) :
    w &&& 0xFF00#16 = BitVec.ofNat 16 op <<< 12 ↔
      opField w = op ∧ zeroField w = 0#3 ∧ bitOperand w = false := by
  have hmask : (w &&& 0xFF00#16).toNat = w.toNat / 256 % 256 * 256 := toNat_and_mask w 8 8 (by decide)
  have hw := w.isLt
  rw [← BitVec.toNat_inj, hmask, BitVec.toNat_shiftLeft, BitVec.toNat_ofNat, Nat.shiftLeft_eq, zeroField_eq_zero_iff,
    opField_eq, eq_comm (b := false), bitOperand_eq_iff, Bool.toNat_false]
  omega

/-- The row of `set`: its operation number, `ZERO` zero, any `BIT` and `N`. -/
theorem and_FE00_eq_iff (w : CommandWord) :
    w &&& 0xFE00#16 = 0x2000#16 ↔ opField w = 2 ∧ zeroField w = 0#3 := by
  have hmask : (w &&& 0xFE00#16).toNat = w.toNat / 512 % 128 * 512 := toNat_and_mask w 7 9 (by decide)
  have hw := w.isLt
  rw [← BitVec.toNat_inj, hmask, BitVec.toNat_ofNat, zeroField_eq_zero_iff, opField_eq]
  omega

theorem and_0E00_eq_zero_iff (w : CommandWord) : w &&& 0x0E00#16 = 0#16 ↔ zeroField w = 0#3 := by
  have hmask : (w &&& 0x0E00#16).toNat = w.toNat / 512 % 8 * 512 := toNat_and_mask w 3 9 (by decide)
  rw [← BitVec.toNat_inj, hmask, BitVec.toNat_zero, zeroField_eq_zero_iff]
  omega

theorem and_0100_ne_zero_iff (w : CommandWord) : w &&& 0x0100#16 ≠ 0#16 ↔ bitOperand w = true := by
  have hmask : (w &&& 0x0100#16).toNat = w.toNat / 256 % 2 * 256 := toNat_and_mask w 1 8 (by decide)
  rw [ne_eq, ← BitVec.toNat_inj, hmask, BitVec.toNat_zero, eq_comm (b := true), bitOperand_eq_iff, Bool.toNat_true]
  omega

theorem toNat_shiftRight_12 (w : CommandWord) : (w >>> 12).toNat = opField w := by
  rw [BitVec.toNat_ushiftRight, Nat.shiftRight_eq_div_pow, opField_eq]

/-! ## The rows of the opcode map (30 R52, R53) -/

/-- The words of the command with operation number `op`. -/
theorem decode_opNumber_iff (w : CommandWord) {op : Nat} (hop : op < 13) :
    (∃ i, decode w = .ok i ∧ i.opNumber = op) ↔
      opField w = op ∧ zeroField w = 0#3 ∧ ¬ (op ≠ 2 ∧ bitOperand w = true) := by
  constructor
  · rintro ⟨i, hd, rfl⟩
    obtain ⟨hi, hz, hbit⟩ := (decode_ok_iff w i).1 hd
    obtain ⟨hop, -, -⟩ := (operation_eq_some_iff _ _ _ _).1 hi
    exact ⟨hop.symm, hz, hop ▸ hbit⟩
  · rintro ⟨rfl, hz, hbit⟩
    obtain ⟨i, hi⟩ := (operation_isSome_iff _ (nOperand w) (bitOperand w)).2 hop
    obtain ⟨hop, -, -⟩ := (operation_eq_some_iff _ _ _ _).1 hi
    exact ⟨i, (decode_ok_iff w i).2 ⟨hi, hz, hbit⟩, hop⟩

theorem decode_set_iff (w : CommandWord) :
    (∃ n b, decode w = .ok (.set n b)) ↔ opField w = 2 ∧ zeroField w = 0#3 := by
  have hset : (∃ n b, decode w = .ok (.set n b)) ↔ ∃ i, decode w = .ok i ∧ i.opNumber = 2 := by
    constructor
    · rintro ⟨n, b, hd⟩
      exact ⟨_, hd, rfl⟩
    · rintro ⟨i, hd, hop⟩
      obtain ⟨n, b, rfl⟩ := (opNumber_eq_two_iff i).1 hop
      exact ⟨n, b, hd⟩
  rw [hset, decode_opNumber_iff w (by decide)]
  simp

/-- Settles O3: each row's mask fixes `OP`, `ZERO` and, outside `set`, `BIT`, and leaves the operands free. -/
theorem legalWordsAreTheOpcodeRows : Obligations.LegalWordsAreTheOpcodeRows := by
  unfold Obligations.LegalWordsAreTheOpcodeRows
  intro w
  refine ⟨fun op hop hne => ?_, ?_, fun i hd => ?_⟩
  · rw [decode_opNumber_iff w hop, and_FF00_eq_iff w (by omega)]
    simp [hne]
  · rw [decode_set_iff, and_FE00_eq_iff]
  · obtain ⟨-, -, hn, hbit⟩ := (decode_ok_iff_fields w i).1 hd
    exact ⟨opNumber_lt i, hn.trans (nOperand_eq w), hbit⟩

end Sys2Proof
end

section
/-! Issuing a word (30 R55, R56), and the range faults an assembler warns of (30 R59). -/

namespace Sys2Proof.Machine

open Sys2Proof

/-- Settles O7: a step is the host's next move, here an issue the unit accepts. -/
theorem stepRunsTheDecodedCommand : Obligations.StepRunsTheDecodedCommand := by
  unfold Obligations.StepRunsTheDecodedCommand
  intro s w rest i hp hf hd
  exact (step_cons hp).trans (issue_of_decode_ok (s := s.withPending rest) hf hd)

/-- Settles O8: the three masks read the three fields that the decoder tests, and an illegal word is a fault entry. -/
theorem illegalWordRaisesIllegalCommand : Obligations.IllegalWordRaisesIllegalCommand := by
  unfold Obligations.IllegalWordRaisesIllegalCommand
  intro w
  refine ⟨?_, fun s rest hp hf hd => ?_⟩
  · rw [decode_error_iff, toNat_shiftRight_12, ne_eq (w &&& 0x0E00#16), and_0E00_eq_zero_iff, and_0100_ne_zero_iff,
      and_comm (a := bitOperand w = true)]
  · obtain ⟨e, hd⟩ := hd
    exact (step_cons hp).trans (issue_of_decode_error (s := s.withPending rest) hf hd)

/-- An assembler warns of a command exactly when the command's range check fails for the `TB` of `c`. -/
theorem shouldWarn_eq (c : Config) (i : Instr) : shouldWarn c i = (rangeFault i c.tb).isSome := by
  cases i with
  | mask n => rfl
  | get n | set n bit | on n | off n | flip n =>
    by_cases h : c.tb ≤ n <;> simp [shouldWarn, rangeFault, indexFault, h]
  | inc n | sharedPrefixLen n | zeroesfrom n | onesfrom n | isZeroesfrom n | isOnesfrom n | contains n =>
    by_cases h : c.tb < n <;> simp [shouldWarn, rangeFault, lengthFault, h]

/-- A command leaves an unfaulted unit faulted exactly when its range check fails. -/
theorem afterExec_fault (i : Instr) {s : State} (hf : s.fault = false) :
    (afterExec i s).fault = (rangeFault i s.tb).isSome := by
  cases hc : rangeFault i s.tb with
  | none => rw [afterExec_of_inRange hc, effectOf_fault, hf, Option.isSome_none]
  | some c => rw [afterExec_of_fault hc, raiseFault_fault, Option.isSome_some]

/-- Settles O6: the warning and the fault are both the command's range check. -/
theorem assemblerWarnsExactlyOfRangeFaults : Obligations.AssemblerWarnsExactlyOfRangeFaults := by
  unfold Obligations.AssemblerWarnsExactlyOfRangeFaults
  intro i s hf
  rw [shouldWarn_eq, ← State.tb, ← afterExec_fault i hf]
  constructor
  · intro h
    exact ⟨_, exec_eq_afterExec i s, h⟩
  · rintro ⟨s', hs, h⟩
    cases (exec_eq_afterExec i s).symm.trans hs
    exact h

end Sys2Proof.Machine
end

section
/-! The assembler (30 R59): the text of a command assembles to its word, and whatever assembles is a legal word. -/

namespace Sys2Proof.Machine

open Sys2Proof

/-! ## Whatever assembles is a legal word -/

theorem byteNumber_le {w : List Char} {k : Nat} (h : byteNumber w = .ok k) : k ≤ 255 := by
  unfold byteNumber at h
  cases hn : number w with
  | error e => simp [hn] at h
  | ok j =>
    simp only [hn] at h
    split_ifs at h with hj
    cases h
    omega

/-- A format `N` command carries the operand it is made from. -/
theorem n_of_mem_formatN {make : Nat → Instr} (h : make ∈ formatN) (k : Nat) : (make k).n = k := by
  simp only [formatN, List.mem_cons, List.not_mem_nil, or_false] at h
  rcases h with rfl | rfl | rfl | rfl | rfl | rfl | rfl | rfl | rfl | rfl | rfl | rfl <;> rfl

/-- What the words of a line can denote: `set` with a byte and a bit, or a format `N` command with a byte. -/
theorem commandOfWords_cases {ws : List (List Char)} {i : Instr} (h : commandOfWords ws = .ok i) :
    (∃ k b, k ≤ 255 ∧ i = .set k b) ∨ ∃ make ∈ formatN, ∃ k, k ≤ 255 ∧ i = make k := by
  unfold commandOfWords at h
  split at h
  · cases h
  · split at h
    · split at h
      · split at h
        · rename_i k b hk hb
          cases h
          exact .inl ⟨k, b, byteNumber_le hk, rfl⟩
        · cases h
        · cases h
      · cases h
    · split at h
      · cases h
      · rename_i make hmake
        split at h
        · split at h
          · rename_i k hk
            cases h
            exact .inr ⟨make, List.mem_of_find?_eq_some hmake, k, byteNumber_le hk, rfl⟩
          · cases h
        · cases h

theorem commandOfWords_wellFormed {ws : List (List Char)} {i : Instr} (h : commandOfWords ws = .ok i) :
    i.wellFormed = true := by
  rw [Instr.wellFormed, decide_eq_true_eq]
  rcases commandOfWords_cases h with ⟨k, b, hk, rfl⟩ | ⟨make, hmake, k, hk, rfl⟩
  · exact Nat.lt_succ_of_le hk
  · rw [n_of_mem_formatN hmake]
    exact Nat.lt_succ_of_le hk

theorem assemble_ok_iff (line : List Char) (w : CommandWord) :
    assemble line = .ok w ↔ ∃ i, commandOfWords (wordsFrom [] (withoutComment line)) = .ok i ∧ encode i = w := by
  unfold assemble
  cases commandOfWords (wordsFrom [] (withoutComment line)) <;> simp

/-! ## Numbers in decimal -/

/-- Our digit reader and the library's agree on decimal digits. -/
theorem digitValue_of_isDigit {c : Char} (h : c.isDigit = true) : digitValue 10 c = some (c.toNat - '0'.toNat) := by
  obtain ⟨h0, h9⟩ := Char.isDigit_iff_toNat.1 h
  have hle : '0' ≤ c ∧ c ≤ '9' := ⟨h0, h9⟩
  have hlt : c.toNat - 48 < 10 := by
    have h9' : c.toNat ≤ 57 := h9
    omega
  simp [digitValue, hle, hlt]

theorem digitsFrom_of_isDigit {cs : List Char} (h : ∀ c ∈ cs, c.isDigit = true) (acc : Nat) :
    digitsFrom 10 acc cs = some (Nat.ofDigitChars 10 cs acc) := by
  induction cs generalizing acc with
  | nil => rfl
  | cons c rest ih =>
    rw [digitsFrom, digitValue_of_isDigit (h c List.mem_cons_self), Nat.ofDigitChars_cons, Nat.mul_comm 10]
    exact ih (fun d hd => h d (List.mem_cons_of_mem c hd)) _

/-- A nonempty list of decimal digits is not of the form `0x...`, and is read in base 10. -/
theorem number_of_isDigit {cs : List Char} (hne : cs ≠ []) (h : ∀ c ∈ cs, c.isDigit = true) :
    number cs = .ok (Nat.ofDigitChars 10 cs 0) := by
  have hx : 'x'.isDigit = false := by decide
  unfold number
  split
  · contradiction
  · simp [hx] at h
  · rw [digitsFrom_of_isDigit h]

theorem number_toDigits (n : Nat) : number (Nat.toDigits 10 n) = .ok n := by
  rw [number_of_isDigit Nat.toDigits_ne_nil fun c hc => Nat.isDigit_of_mem_toDigits (by decide) (by decide) hc,
    Nat.ofDigitChars_ten_toDigits]

theorem byteNumber_toDigits {n : Nat} (h : n < 256) : byteNumber (Nat.toDigits 10 n) = .ok n := by
  simp [byteNumber, number_toDigits, Nat.le_of_lt_succ h]

/-! ## The words of a line -/

/-- A character that neither ends a word nor starts a comment. -/
def plain (c : Char) : Prop := c ≠ ' ' ∧ c ≠ '\t' ∧ c ≠ ',' ∧ c ≠ ';'

theorem ne_semicolon_of_plain {c : Char} (h : plain c) : c ≠ ';' := h.2.2.2

theorem plain_of_isDigit {c : Char} (h : c.isDigit = true) : plain c := by
  refine ⟨?_, ?_, ?_, ?_⟩ <;> rintro rfl <;> exact absurd h (by decide)

theorem plain_of_mem_toDigits {n : Nat} {c : Char} (h : c ∈ Nat.toDigits 10 n) : plain c :=
  plain_of_isDigit (Nat.isDigit_of_mem_toDigits (by decide) (by decide) h)

/-- Plain characters are read into the current word. -/
theorem wordsFrom_append {cs : List Char} (h : ∀ c ∈ cs, plain c) (w rest : List Char) :
    wordsFrom w (cs ++ rest) = wordsFrom (w ++ cs) rest := by
  induction cs generalizing w with
  | nil => rw [List.nil_append, List.append_nil]
  | cons c cs ih =>
    obtain ⟨hblank, htab, hcomma, -⟩ := h c List.mem_cons_self
    rw [List.cons_append, wordsFrom, if_neg (not_or.2 ⟨hblank, htab⟩), if_neg hcomma,
      ih (fun d hd => h d (List.mem_cons_of_mem c hd)), List.append_assoc, List.singleton_append]

theorem wordsFrom_blank (w rest : List Char) : wordsFrom w (' ' :: rest) = finishedWord w ++ wordsFrom [] rest := by
  rw [wordsFrom, if_pos (.inl rfl)]

theorem finishedWord_of_ne_nil {w : List Char} (h : w ≠ []) : finishedWord w = [w] := if_neg h

theorem withoutComment_of_not_mem {line : List Char} (h : ∀ c ∈ line, c ≠ ';') : withoutComment line = line := by
  rw [withoutComment, List.takeWhile_eq_self_iff]
  simpa using h

/-- The words of a mnemonic, a blank, a first operand and what follows it. -/
theorem words_of_text {name operand rest : List Char} (hne : name ≠ []) (hname : ∀ c ∈ name, plain c)
    (hop : ∀ c ∈ operand, plain c) (hrest : ∀ c ∈ rest, c ≠ ';') :
    wordsFrom [] (withoutComment (name ++ ' ' :: operand ++ rest)) = name :: wordsFrom operand rest := by
  have hcomment : ∀ c ∈ name ++ ' ' :: operand ++ rest, c ≠ ';' := by
    simp only [List.mem_append, List.mem_cons]
    rintro c ((hc | rfl | hc) | hc)
    · exact ne_semicolon_of_plain (hname c hc)
    · decide
    · exact ne_semicolon_of_plain (hop c hc)
    · exact hrest c hc
  rw [withoutComment_of_not_mem hcomment, List.append_assoc, wordsFrom_append hname, List.cons_append, wordsFrom_blank,
    List.nil_append, finishedWord_of_ne_nil hne, wordsFrom_append hop, List.nil_append, List.singleton_append]

/-! ## The text of a command denotes the command -/

theorem mnemonic_plain (i : Instr) : ∀ c ∈ (mnemonic i).toList, plain c := by
  cases i <;> simp [mnemonic, plain]

theorem mnemonic_ne_nil (i : Instr) : (mnemonic i).toList ≠ [] := by
  cases i <;> simp only [mnemonic] <;> decide

theorem mnemonic_eq_set_iff (i : Instr) : (mnemonic i).toList = "set".toList ↔ i.opNumber = 2 := by
  cases i <;> simp only [mnemonic, Instr.opNumber] <;> decide

theorem commandOfWords_set {n bit : List Char} {k : Nat} {b : Bool} (hn : byteNumber n = .ok k)
    (hb : bitNumber bit = .ok b) : commandOfWords ["set".toList, n, [','], bit] = .ok (.set k b) := by
  simp [commandOfWords, hn, hb]

/-- A format `N` command is found by its mnemonic. -/
theorem formatN_find {i : Instr} (h : i.opNumber ≠ 2) :
    ∃ make, formatN.find? (fun make => decide ((mnemonic (make 0)).toList = (mnemonic i).toList)) = some make ∧
      make i.n = i := by
  cases i with
  | set n bit => exact absurd rfl h
  | _ => exact ⟨_, by simp [formatN, mnemonic], rfl⟩

theorem commandOfWords_formatN {i : Instr} (h : i.opNumber ≠ 2) {n : List Char} (hn : byteNumber n = .ok i.n) :
    commandOfWords [(mnemonic i).toList, n] = .ok i := by
  obtain ⟨make, hmake, hi⟩ := formatN_find h
  unfold commandOfWords
  simp only [mnemonic_eq_set_iff, h, if_false, hmake, hn, hi]

theorem commandText_formatN {i : Instr} (h : i.opNumber ≠ 2) :
    commandText i = (mnemonic i).toList ++ ' ' :: Nat.toDigits 10 i.n ++ [] := by
  cases i with
  | set n bit => exact absurd rfl h
  | _ => rfl

/-- The digit of a bit operand. -/
def bitChar (bit : Bool) : Char := if bit = true then '1' else '0'

theorem bitNumber_bitChar (bit : Bool) : bitNumber [bitChar bit] = .ok bit := by
  cases bit <;> rfl

theorem commandText_set (n : Nat) (bit : Bool) :
    commandText (.set n bit) =
      (mnemonic (.set n bit)).toList ++ ' ' :: Nat.toDigits 10 (Instr.set n bit).n ++ [',', ' ', bitChar bit] := by
  cases bit <;> rfl

theorem wordsFrom_bit {w : List Char} (h : w ≠ []) (bit : Bool) :
    wordsFrom w [',', ' ', bitChar bit] = [w, [','], [bitChar bit]] := by
  cases bit <;> simp [wordsFrom, finishedWord, bitChar, h]

theorem commandOfWords_commandText {i : Instr} (h : i.wellFormed = true) :
    commandOfWords (wordsFrom [] (withoutComment (commandText i))) = .ok i := by
  have hn : byteNumber (Nat.toDigits 10 i.n) = .ok i.n := byteNumber_toDigits (of_decide_eq_true h)
  have hdigits : ∀ c ∈ Nat.toDigits 10 i.n, plain c := fun _ => plain_of_mem_toDigits
  by_cases hset : i.opNumber = 2
  · obtain ⟨n, bit, rfl⟩ := (opNumber_eq_two_iff i).1 hset
    have hrest : ∀ c ∈ [',', ' ', bitChar bit], c ≠ ';' := by cases bit <;> simp [bitChar]
    rw [commandText_set, words_of_text (mnemonic_ne_nil (.set n bit)) (mnemonic_plain (.set n bit)) hdigits hrest,
      wordsFrom_bit Nat.toDigits_ne_nil]
    exact commandOfWords_set hn (bitNumber_bitChar bit)
  · rw [commandText_formatN hset, words_of_text (mnemonic_ne_nil i) (mnemonic_plain i) hdigits (by simp), wordsFrom,
      finishedWord_of_ne_nil Nat.toDigits_ne_nil]
    exact commandOfWords_formatN hset hn

theorem assemble_commandText {i : Instr} (h : i.wellFormed = true) : assemble (commandText i) = .ok (encode i) :=
  (assemble_ok_iff _ _).2 ⟨i, commandOfWords_commandText h, rfl⟩

/-- Settles O5: the text of a command is split into the words that denote it, and a line denotes only well-formed
commands. -/
theorem assemblerAgreesWithEncoder : Obligations.AssemblerAgreesWithEncoder := by
  unfold Obligations.AssemblerAgreesWithEncoder
  refine ⟨fun i h => assemble_commandText h, fun line w h => ?_⟩
  obtain ⟨i, hi, rfl⟩ := (assemble_ok_iff line w).1 h
  have hwf := commandOfWords_wellFormed hi
  exact ⟨i, hwf, decodeOfEncodeIsTheCommand i hwf⟩

/-! ## The examples (30 R60) -/

/-- A row of 30 R60 whose text and word are those of the command. -/
theorem example_row {text : List Char} {w : CommandWord} {i : Instr} (hwf : i.wellFormed = true)
    (htext : text = commandText i) (hw : w = encode i) : assemble text = .ok w ∧ decode w = .ok i := by
  subst htext hw
  exact ⟨assemble_commandText hwf, decodeOfEncodeIsTheCommand i hwf⟩

/-- Settles O4: each row spells out the text and the word of its command. -/
theorem encodingExamplesOfTheSpec : Obligations.EncodingExamplesOfTheSpec := by
  unfold Obligations.EncodingExamplesOfTheSpec
  refine ⟨fun row hrow => ?_, fun row hrow => ?_, by decide, by decide, by decide⟩
  · fin_cases hrow <;> exact example_row rfl (by decide) (by decide)
  · fin_cases hrow <;> exact example_row rfl (by decide) (by decide)

end Sys2Proof.Machine
end

section
/-! The first difference of two buffers (42 R90, R91), and the command sequences of 30 R62. -/

namespace Sys2Proof.Machine

open Sys2Proof Sys2Proof.Claims

/-! ## The first difference of two buffers -/

/-- `d` is the lowest bit index at which the buffers differ, and below `k`; `none` says that they agree below `k`. -/
def isFirstDiff (a b : Memory) (k : Nat) : Option Nat → Prop
  | some d => d < k ∧ a.bit d ≠ b.bit d ∧ sameBelow a b d
  | none => sameBelow a b k

/-- The bit of an element at a position, as a bit of the buffer (20 R30). -/
theorem bit_mul_add (m : Memory) (i : Nat) {p : Nat} (hp : p < 8) :
    m.bit (i * 8 + p) = (m.elem i).getLsbD (7 - p) := by
  have hi : (i * 8 + p) / 8 = i := by omega
  have hpos : 7 - (i * 8 + p) % 8 = 7 - p := by omega
  rw [Memory.bit, elemOf, posOf, hi, hpos]

/-- An element that differs does so first at the highest 1 of the exclusive or. -/
theorem diffInElem_some {a b : Memory} {i d : Nat} (h : diffInElem a b i = some d) :
    i * 8 ≤ d ∧ d < (i + 1) * 8 ∧ a.bit d ≠ b.bit d ∧ ∀ j, i * 8 ≤ j → j < d → a.bit j = b.bit j := by
  unfold diffInElem at h
  split_ifs at h with hx
  cases h
  obtain ⟨h7, hone, hzero⟩ := clz8_spec _ hx
  generalize clz8 (a.elem i ^^^ b.elem i) = p at *
  refine ⟨by omega, by omega, ?_, fun j hij hj => ?_⟩
  · rw [bit_mul_add a i (by omega), bit_mul_add b i (by omega)]
    rw [BitVec.getLsbD_xor] at hone
    simpa using hone
  · obtain ⟨q, rfl⟩ := Nat.exists_eq_add_of_le hij
    have hq := hzero (7 - q) (by omega)
    rw [BitVec.getLsbD_xor] at hq
    rw [bit_mul_add a i (by omega), bit_mul_add b i (by omega)]
    simpa using hq

theorem diffInElem_none {a b : Memory} {i : Nat} (h : diffInElem a b i = none) :
    ∀ j, i * 8 ≤ j → j < (i + 1) * 8 → a.bit j = b.bit j := by
  unfold diffInElem at h
  split_ifs at h with hx
  intro j hij hj
  refine elem_eq_iff_bit.1 (BitVec.xor_eq_zero_iff.1 hx) j ?_
  unfold elemOf
  omega

theorem firstDiff_succ (a b : Memory) (len : Nat) :
    firstDiff a b (len + 1) = (firstDiff a b len).or (diffInElem a b len) := by
  simp [firstDiff, List.range_succ, List.findSome?_append]

/-- The scan of 42 R90 finds the first difference. -/
theorem isFirstDiff_firstDiff (a b : Memory) (len : Nat) : isFirstDiff a b (len * 8) (firstDiff a b len) := by
  induction len with
  | zero => intro j hj; omega
  | succ len ih =>
    rw [firstDiff_succ]
    cases hf : firstDiff a b len with
    | some d =>
      rw [hf] at ih
      obtain ⟨hlt, hne, hsame⟩ := ih
      exact ⟨by omega, hne, hsame⟩
    | none =>
      rw [hf] at ih
      cases hd : diffInElem a b len with
      | none =>
        intro j hj
        rcases Nat.lt_or_ge j (len * 8) with hlt | hge
        · exact ih j hlt
        · exact diffInElem_none hd j hge hj
      | some d =>
        obtain ⟨-, hlt, hne, hsame⟩ := diffInElem_some hd
        refine ⟨hlt, hne, fun j hj => ?_⟩
        rcases Nat.lt_or_ge j (len * 8) with hlt | hge
        · exact ih j hlt
        · exact hsame j hge hj

/-- The characterisation of 42 R90: the buffers agree below `sharedPrefix`, and differ at it if it is below `n`. -/
theorem sharedPrefix_spec (a b : Memory) {len n : Nat} (hn : n ≤ len * 8) :
    sharedPrefix a b len n ≤ n ∧ sameBelow a b (sharedPrefix a b len n) ∧
      (sharedPrefix a b len n < n → a.bit (sharedPrefix a b len n) ≠ b.bit (sharedPrefix a b len n)) := by
  have hfirst := isFirstDiff_firstDiff a b len
  unfold sharedPrefix
  split
  · subst n
    exact ⟨le_rfl, fun j hj => absurd hj (Nat.not_lt_zero j), fun h => absurd h (Nat.not_lt_zero 0)⟩
  · split
    · rename_i d hd
      rw [hd] at hfirst
      obtain ⟨-, hne, hsame⟩ := hfirst
      refine ⟨min_le_right d n, fun j hj => hsame j (lt_of_lt_of_le hj (min_le_left d n)), fun h => ?_⟩
      rwa [min_eq_left (by omega)]
    · rename_i hd
      rw [hd] at hfirst
      exact ⟨le_rfl, fun j hj => hfirst j (by omega), fun h => absurd h (lt_irrefl n)⟩

/-- `sharedPrefix` is all of `n` exactly when the buffers agree below `n`. -/
theorem sharedPrefix_eq_iff (a b : Memory) {len n : Nat} (hn : n ≤ len * 8) :
    sharedPrefix a b len n = n ↔ sameBelow a b n := by
  obtain ⟨hle, hsame, hne⟩ := sharedPrefix_spec a b hn
  constructor
  · intro h
    rwa [h] at hsame
  · intro h
    by_contra hlt
    have hlt := lt_of_le_of_ne hle hlt
    exact hne hlt (h _ hlt)

/-! ## Issuing a list of commands -/

theorem rangeFault_eq_none {i : Instr} {tb : Nat} (hlen : takesLength i = true) (hn : i.n ≤ tb) :
    rangeFault i tb = none := by
  cases i with
  | mask n | get n | set n bit | on n | off n | flip n => cases hlen
  | inc n | sharedPrefixLen n | zeroesfrom n | onesfrom n | isZeroesfrom n | isOnesfrom n | contains n =>
    exact if_neg hn.not_gt

/-- A length command with its operand in range is encoded, accepted, and has its effect. -/
theorem runMoves_issues_cons (i : Instr) {s : State} (hlen : takesLength i = true) (hcfg : s.cfg.wf = true)
    (hf : s.fault = false) (hn : i.n ≤ s.tb) (rest : List Instr) :
    runMoves (issues (i :: rest)) s = runMoves (issues rest) (effectOf i s) := by
  have htb := tb_le_of_wf hcfg
  have hwf : i.wellFormed = true := decide_eq_true (by omega)
  apply runMoves_cons
  calc issue (encode i) s
      = exec i s := issue_of_decode_ok hf (decodeOfEncodeIsTheCommand i hwf)
    _ = .next (effectOf i s) := by rw [exec_eq_afterExec, afterExec_of_inRange (rangeFault_eq_none hlen hn)]

/-! ## The netmask -/

theorem run_netmask {s : State} (hcfg : s.cfg.wf = true) (hf : s.fault = false) {p : Nat} (hp : p ≤ s.tb) :
    runMoves (issues (netmask p)) s = .next { s with a := zeroFrom (onesFrom s.a 0) p } := by
  rw [netmask, runMoves_issues_cons (.onesfrom 0) rfl hcfg hf (Nat.zero_le _),
    runMoves_issues_cons (.zeroesfrom p) (s := effectOf (.onesfrom 0) s) rfl hcfg hf hp]
  rfl

theorem bit_netmask {m : Memory} {len : Nat} (h : Memory.wf m len = true) (p : Nat) {j : Nat} (hj : j < len * 8) :
    (zeroFrom (onesFrom m 0) p).bit j = decide (j < p) := by
  rw [bit_zeroFrom ((wf_onesFrom m 0 len).trans h) p hj, bit_onesFrom h 0 hj, if_pos (Nat.zero_le j)]
  by_cases hpj : p ≤ j
  · simp [hpj]
  · simp [hpj, Nat.lt_of_not_le hpj]

/-! ## The common supernet -/

theorem run_commonSupernet {s : State} (hcfg : s.cfg.wf = true) (hf : s.fault = false) {pa pb : Nat}
    (h : min pa pb ≤ s.tb) :
    runMoves (issues (commonSupernet pa pb)) s =
      .next { s with r := BitVec.ofNat 8 (sharedPrefix s.a s.b s.cfg.len (min pa pb)) } := by
  rw [commonSupernet, runMoves_issues_cons (.sharedPrefixLen (min pa pb)) rfl hcfg hf h]
  rfl

/-- `R` is wide enough for `sharedPrefix` of a well-formed unit. -/
theorem toNat_sharedPrefix {s : State} (hcfg : s.cfg.wf = true) {n : Nat} (hn : n ≤ s.tb) :
    (BitVec.ofNat 8 (sharedPrefix s.a s.b s.cfg.len n)).toNat = sharedPrefix s.a s.b s.cfg.len n := by
  have htb := tb_le_of_wf hcfg
  obtain ⟨hle, -, -⟩ := sharedPrefix_spec s.a s.b hn
  rw [BitVec.toNat_ofNat, Nat.mod_eq_of_lt (by omega)]

/-- Settles O52, from the bits of the two fills and the characterisation of `sharedPrefix`. -/
theorem collaboratorSequencesComputeTheirResults : Obligations.CollaboratorSequencesComputeTheirResults := by
  unfold Obligations.CollaboratorSequencesComputeTheirResults
  intro s hs hf
  obtain ⟨hcfg, ha, -, -⟩ := (wf_iff s).1 hs
  refine ⟨fun p hp => ?_, fun pa pb hpa hpb => ?_⟩
  · refine ⟨_, run_netmask hcfg hf hp, fun j hpj hj => ?_, fun j hj => ?_⟩
    · rw [bit_netmask ha p hj, decide_eq_false hpj.not_gt]
    · rw [bit_netmask ha p (lt_of_lt_of_le hj hp), decide_eq_true hj]
  · have hmin : min pa pb ≤ s.tb := (min_le_left pa pb).trans hpa
    have hr := toNat_sharedPrefix hcfg hmin
    obtain ⟨hle, hsame, hne⟩ := sharedPrefix_spec s.a s.b hmin
    refine ⟨_, run_commonSupernet hcfg hf hmin, ?_⟩
    rw [nested, decide_eq_true_eq, hr]
    exact ⟨hle, hsame, hne, sharedPrefix_eq_iff s.a s.b hmin⟩

end Sys2Proof.Machine
end

section
/-! Commands as they are issued: the rows of the opcode map as numbers (30 R52, R53), the range check of the index
commands (60 R121), and an accepted word. -/

namespace Sys2Proof.Machine

open Sys2Proof Sys2Proof.Claims

/-! ## The word of a command is its row with `N` in the low byte (30 R52, R59) -/

theorem encode_eq_row_or {i : Instr} {op : Nat} {bit : Bool} {row : CommandWord} (h : i.wellFormed = true)
    (hop : i.opNumber = op) (hbit : i.bitField = bit) (hrow : row.toNat = op * 4096 + bit.toNat * 256) :
    encode i = row ||| BitVec.ofNat 16 i.n := by
  subst hop hbit
  have hn : i.n < 2 ^ 8 := of_decide_eq_true h
  have hop := opNumber_lt i
  have hshift : (i.opNumber * 16 + i.bitField.toNat) <<< 8 = row.toNat := by
    rw [Nat.shiftLeft_eq, hrow]
    omega
  apply BitVec.eq_of_toNat_eq
  rw [BitVec.toNat_or, BitVec.toNat_ofNat, Nat.mod_eq_of_lt (hn.trans (by decide)), ← hshift,
    ← Nat.shiftLeft_add_eq_or_of_lt hn, Nat.shiftLeft_eq, encode_toNat]
  omega

theorem encodesAs_of_fields {make : Nat → Instr} {op : Nat} {row : CommandWord}
    (hmake : ∀ n, (make n).n = n ∧ (make n).opNumber = op ∧ (make n).bitField = false)
    (hrow : row.toNat = op * 4096 + false.toNat * 256) : encodesAs make row := by
  intro n h
  obtain ⟨hn, hop, hbit⟩ := hmake n
  have hwf : (make n).wellFormed = true := decide_eq_true (hn.trans_lt h)
  rw [encode_eq_row_or hwf hop hbit hrow, hn]

/-! ## The range check of the index commands (60 R121) -/

theorem rangeFault_of_takesIndex {i : Instr} (h : takesIndex i = true) (tb : Nat) :
    rangeFault i tb = indexFault i.n tb := by
  cases i with
  | get n | set n bit | on n | off n | flip n => rfl
  | mask n | inc n | sharedPrefixLen n | zeroesfrom n | onesfrom n | isZeroesfrom n | isOnesfrom n | contains n => cases h

theorem indexCommand_faults {i : Instr} (h : takesIndex i = true) {s : State} (hn : s.tb ≤ i.n) :
    faultsWith 2#2 i s := by
  have hc : rangeFault i s.tb = some .indexRange := (rangeFault_of_takesIndex h s.tb).trans (if_pos hn)
  rw [faultsWith, exec_eq_afterExec, afterExec_of_fault hc]
  rfl

/-! ## Issuing the word of a command -/

theorem runMoves_encode {i : Instr} {s s' : State} (hwf : i.wellFormed = true) (hf : s.fault = false)
    (he : exec i s = .next s') (rest : List Move) :
    runMoves (.issue (encode i) :: rest) s = runMoves rest s' :=
  runMoves_cons ((issue_of_decode_ok hf (decodeOfEncodeIsTheCommand i hwf)).trans he)

end Sys2Proof.Machine
end

section
/-! The bit accessors (40 R71 to R78). Each of `set`, `on`, `off`, `flip` stores one bit (`storesBit`), and what 40 R77
and R78 say of them follows from that alone. -/

namespace Sys2Proof.Machine

open Sys2Proof Sys2Proof.Claims

/-! ## `mask` and `get` -/

/-- Settles O27: `R` takes `MASK(N)`, with no range check. -/
theorem maskComputesTheSelector : Obligations.MaskComputesTheSelector := by
  unfold Obligations.MaskComputesTheSelector
  refine ⟨encodesAs_of_fields (op := 0) (fun _ => ⟨rfl, rfl, rfl⟩) rfl, fun s n => ?_⟩
  exact ⟨maskOf n, rfl, rfl, fun k _ => getLsbD_maskOf n k⟩

theorem exec_get {s : State} {n : Nat} (hn : n < s.tb) : exec (.get n) s = .next { s with t := s.a.bit n } := by
  rw [← bitTest_eq_bit]
  exact index_ok hn

/-- Settles O28: in range, testing element `N div 8` under `MASK(N)` is reading bit `N`. -/
theorem getReadsTheIndexedBit : Obligations.GetReadsTheIndexedBit := by
  unfold Obligations.GetReadsTheIndexedBit
  exact ⟨encodesAs_of_fields (op := 1) (fun _ => ⟨rfl, rfl, rfl⟩) rfl, fun _ _ => exec_get,
    fun _ n => indexCommand_faults (i := .get n) rfl⟩

/-- The shift and mask of 40 R78 (e). -/
theorem bit_eq_shift_and_one (m : Memory) (n : Nat) :
    m.bit n = decide ((m.elem (n / 8) >>> (7 - n % 8)) &&& 1#8 = 1#8) := by
  rw [Memory.bit, elemOf, posOf, BitVec.and_one_eq_setWidth_ofBool_getLsbD, BitVec.getLsbD_ushiftRight, Nat.add_zero]
  cases (m.elem (n / 8)).getLsbD (7 - n % 8) <;> rfl

/-! ## The commands that store a bit -/

/-- A command that updates the element of bit `n`, so that only bit `n` of the buffer can change. -/
theorem storesBit_of_modify {make : Nat → Instr} {v : State → Nat → Bool} (f : Nat → Byte → Byte)
    (hexec : ∀ s n, exec (make n) s = whenIndexInRange n s (s.setA (s.a.modify (elemOf n) (f n))))
    (hbit : ∀ s n, Memory.wf s.a s.cfg.len = true → n < s.tb →
      ∀ j, (s.a.modify (elemOf n) (f n)).bit j = if j = n then v s n else s.a.bit j) :
    storesBit make v := by
  intro s n hs hn
  obtain ⟨-, ha, -, -⟩ := (wf_iff s).1 hs
  exact ⟨s.a.modify (elemOf n) (f n), (hexec s n).trans (index_ok hn), (Memory.wf_modify _ _ _ _).trans ha,
    fun j _ => hbit s n ha hn j, fun i hi => Memory.elem_modify_other s.a (f n) hi⟩

theorem storesBit_on : storesBit .on fun _ _ => true :=
  storesBit_of_modify (fun n x => x ||| maskOf n) (fun _ _ => rfl) fun _ _ ha hn => bit_turnBitOn ha hn

theorem storesBit_off : storesBit .off fun _ _ => false :=
  storesBit_of_modify (fun n x => x &&& ~~~ maskOf n) (fun _ _ => rfl) fun _ _ ha hn => bit_turnBitOff ha hn

theorem storesBit_flip : storesBit .flip fun s n => !s.a.bit n :=
  storesBit_of_modify (fun n x => x ^^^ maskOf n) (fun _ _ => rfl) fun _ _ ha hn => bit_invertBit ha hn

theorem exec_set_true (n : Nat) (s : State) : exec (.set n true) s = exec (.on n) s := rfl

theorem exec_set_false (n : Nat) (s : State) : exec (.set n false) s = exec (.off n) s := rfl

theorem storesBit_set (b : Bool) : storesBit (fun n => .set n b) fun _ _ => b := by
  intro s n
  cases b with
  | true =>
    rw [exec_set_true]
    exact storesBit_on s n
  | false =>
    rw [exec_set_false]
    exact storesBit_off s n

/-- Two commands that store the same value in bit `n` have the same effect. -/
theorem exec_eq_of_storesBit {make make' : Nat → Instr} {v v' : State → Nat → Bool} (h : storesBit make v)
    (h' : storesBit make' v') {s : State} {n : Nat} (hs : s.wf = true) (hn : n < s.tb) (hv : v s n = v' s n) :
    exec (make n) s = exec (make' n) s := by
  obtain ⟨m, he, hm, hbit, -⟩ := h s n hs hn
  obtain ⟨m', he', hm', hbit', -⟩ := h' s n hs hn
  have hmm : m = m' := Memory.ext_bits hm hm' fun j hj => by rw [hbit j hj, hbit' j hj, hv]
  rw [he, he', hmm]

/-- A command that stores a bit changes no bit at another index (40 R78 (c)). -/
theorem exec_keeps_other_bits {make : Nat → Instr} {v : State → Nat → Bool} (h : storesBit make v) {s : State} {n : Nat}
    (hs : s.wf = true) (hn : n < s.tb) :
    ∃ s', exec (make n) s = .next s' ∧ ∀ j, j < s.tb → j ≠ n → s'.a.bit j = s.a.bit j := by
  obtain ⟨m, he, -, hbit, -⟩ := h s n hs hn
  exact ⟨_, he, fun j hj hjn => (hbit j hj).trans (if_neg hjn)⟩

/-- `get` after a command that stores a bit reads the bit it stored (40 R77). -/
theorem run_store_get {make : Nat → Instr} {v : State → Nat → Bool} (h : storesBit make v)
    (hmake : ∀ n, (make n).n = n) {s : State} {n : Nat} (hs : s.wf = true) (hf : s.fault = false) (hn : n < s.tb) :
    ∃ m, runMoves [.issue (encode (make n)), .issue (encode (.get n))] s = .next { s with a := m, t := v s n } ∧
      ∀ j, j < s.tb → j ≠ n → m.bit j = s.a.bit j := by
  obtain ⟨m, he, -, hbit, -⟩ := h s n hs hn
  obtain ⟨hcfg, -, -, -⟩ := (wf_iff s).1 hs
  have hn256 : n < 256 := hn.trans_le ((tb_le_of_wf hcfg).trans (by decide))
  have hstored : m.bit n = v s n := (hbit n hn).trans (if_pos rfl)
  refine ⟨m, ?_, fun j hj hjn => (hbit j hj).trans (if_neg hjn)⟩
  rw [runMoves_encode (decide_eq_true ((hmake n).trans_lt hn256)) hf he,
    runMoves_encode (i := .get n) (s := { s with a := m }) (decide_eq_true hn256) hf (exec_get hn), ← hstored]
  rfl

/-! ## `set`, `on`, `off` -/

/-- Settles O29: `set` stores `BIT`, and its word is its row with `BIT` and `N` put in. -/
theorem setStoresTheBit : Obligations.SetStoresTheBit := by
  unfold Obligations.SetStoresTheBit
  refine ⟨fun n b hn => ?_, storesBit_set, fun _ n b => indexCommand_faults (i := .set n b) rfl⟩
  exact encode_eq_row_or (i := .set n b) (op := 2) (bit := b) (decide_eq_true hn) rfl rfl (by cases b <;> decide)

/-- Settles O30: or with `MASK(N)` stores 1 in bit `N`. -/
theorem onStoresOne : Obligations.OnStoresOne := by
  unfold Obligations.OnStoresOne
  exact ⟨encodesAs_of_fields (op := 3) (fun _ => ⟨rfl, rfl, rfl⟩) rfl, storesBit_on,
    fun _ n => indexCommand_faults (i := .on n) rfl⟩

/-- Settles O31: and with the complement of `MASK(N)` stores 0 in bit `N`. -/
theorem offStoresZero : Obligations.OffStoresZero := by
  unfold Obligations.OffStoresZero
  exact ⟨encodesAs_of_fields (op := 4) (fun _ => ⟨rfl, rfl, rfl⟩) rfl, storesBit_off,
    fun _ n => indexCommand_faults (i := .off n) rfl⟩

/-! ## `flip` -/

theorem Memory.modify_modify_same (m : Memory) (i : Nat) (f g : Byte → Byte) :
    (m.modify i f).modify i g = m.modify i fun x => g (f x) := by
  simp only [Memory.modify, List.map_map]
  refine List.map_congr_left fun c _ => ?_
  by_cases h : c.1 = i <;> simp [h]

theorem invertBit_invertBit (m : Memory) (n : Nat) : invertBit (invertBit m n) n = m := by
  rw [invertBit, invertBit, Memory.modify_modify_same]
  simp [Memory.modify]

theorem exec_flip {s : State} {n : Nat} (hn : n < s.tb) : exec (.flip n) s = .next { s with a := invertBit s.a n } :=
  index_ok hn

theorem run_flip_flip {s : State} {n : Nat} (hn : n < s.tb) (hf : s.fault = false) (hn256 : n < 256) :
    runMoves [.issue (encode (.flip n)), .issue (encode (.flip n))] s = .next s := by
  have hwf : (Instr.flip n).wellFormed = true := decide_eq_true hn256
  rw [runMoves_encode hwf hf (exec_flip hn),
    runMoves_encode (s := { s with a := invertBit s.a n }) hwf hf (exec_flip hn), invertBit_invertBit]
  rfl

/-- Settles O32: `flip` stores the complement, and exclusive or with the same selector twice is the identity. -/
theorem flipInvertsTheBit : Obligations.FlipInvertsTheBit := by
  unfold Obligations.FlipInvertsTheBit
  exact ⟨encodesAs_of_fields (op := 5) (fun _ => ⟨rfl, rfl, rfl⟩) rfl, storesBit_flip,
    fun _ _ => run_flip_flip, fun _ n => indexCommand_faults (i := .flip n) rfl⟩

/-! ## The relations among the accessors -/

/-- Settles O33: `set` stores its bit, and `get` reads what was stored. -/
theorem getAfterSetReturnsTheBit : Obligations.GetAfterSetReturnsTheBit := by
  unfold Obligations.GetAfterSetReturnsTheBit
  intro s i b hs hf hi
  exact run_store_get (storesBit_set b) (fun _ => rfl) hs hf hi

/-- Settles O34: all four commands store a bit, and the value stored in bit `i` determines the effect, what `get i`
then reads, and that the other bits are kept. -/
theorem bitAccessorsRelateAsStated : Obligations.BitAccessorsRelateAsStated := by
  unfold Obligations.BitAccessorsRelateAsStated
  intro s i hs hf hi
  have hflip : exec (.flip i) s = exec (.set i (!s.a.bit i)) s :=
    exec_eq_of_storesBit storesBit_flip (storesBit_set (!s.a.bit i)) hs hi rfl
  obtain ⟨_, hon, -⟩ := run_store_get storesBit_on (fun _ => rfl) hs hf hi
  obtain ⟨_, hoff, -⟩ := run_store_get storesBit_off (fun _ => rfl) hs hf hi
  obtain ⟨_, hfl, -⟩ := run_store_get storesBit_flip (fun _ => rfl) hs hf hi
  refine ⟨(exec_set_true i s).symm, (exec_set_false i s).symm, hflip, fun c hc => ?_, ⟨_, hon, rfl⟩, ⟨_, hoff, rfl⟩,
    ⟨_, hfl, rfl⟩, ?_⟩
  · simp only [List.mem_cons, List.not_mem_nil, or_false] at hc
    rcases hc with rfl | rfl | rfl | rfl | rfl
    · exact exec_keeps_other_bits (storesBit_set true) hs hi
    · exact exec_keeps_other_bits (storesBit_set false) hs hi
    · exact exec_keeps_other_bits storesBit_on hs hi
    · exact exec_keeps_other_bits storesBit_off hs hi
    · exact exec_keeps_other_bits storesBit_flip hs hi
  · rw [exec_get hi, bit_eq_shift_and_one]

end Sys2Proof.Machine
end

section
/-! The guarded increment `inc` (41 R80 to R86): the buffer and the report of `inc` in bits and in numbers, and a
whole cycle of `inc 0`. -/

namespace Sys2Proof.Machine

open Sys2Proof Sys2Proof.Claims

/-! ## The low bits of a number, and its successor split above them -/

theorem mod_two_pow_eq_iff_testBit {x y k : Nat} (hy : y < 2 ^ k) :
    x % 2 ^ k = y ↔ ∀ i < k, x.testBit i = y.testBit i := by
  constructor
  · rintro rfl i hi
    rw [Nat.testBit_mod_two_pow, decide_eq_true hi, Bool.true_and]
  · intro h
    rw [← Nat.mod_eq_of_lt hy]
    refine Nat.eq_of_testBit_eq fun i => ?_
    rw [Nat.testBit_mod_two_pow, Nat.testBit_mod_two_pow]
    by_cases hi : i < k
    · rw [h i hi]
    · rw [decide_eq_false hi, Bool.false_and, Bool.false_and]

theorem mod_two_pow_add_one_eq_iff (x k : Nat) : x % 2 ^ k + 1 = 2 ^ k ↔ ∀ i < k, x.testBit i = true := by
  have hpos : 0 < 2 ^ k := Nat.two_pow_pos k
  have hones : x % 2 ^ k + 1 = 2 ^ k ↔ x % 2 ^ k = 2 ^ k - 1 := by omega
  rw [hones, mod_two_pow_eq_iff_testBit (Nat.sub_lt hpos Nat.one_pos)]
  refine forall₂_congr fun i hi => ?_
  rw [Nat.testBit_two_pow_sub_one, decide_eq_true hi]

theorem mod_two_pow_eq_zero_iff (x k : Nat) : x % 2 ^ k = 0 ↔ ∀ i < k, x.testBit i = false := by
  simp [mod_two_pow_eq_iff_testBit (Nat.two_pow_pos k)]

theorem two_pow_dvd_succ_iff (x k : Nat) : 2 ^ k ∣ x + 1 ↔ x % 2 ^ k + 1 = 2 ^ k := by
  have hlt : x % 2 ^ k < 2 ^ k := Nat.mod_lt x (Nat.two_pow_pos k)
  rw [Nat.dvd_iff_mod_eq_zero, ← Nat.mod_add_mod, ← Nat.dvd_iff_mod_eq_zero]
  constructor
  · intro h
    exact le_antisymm hlt (Nat.le_of_dvd (Nat.succ_pos _) h)
  · intro h
    rw [h]

/-- The low bits are not all ones: the carry stops among them. -/
theorem succ_of_low_not_ones {x n h : Nat} (hx : x < 2 ^ (n + h)) (hlow : x % 2 ^ h + 1 ≠ 2 ^ h) :
    (x + 1) % 2 ^ (n + h) = x + 1 ∧ (x + 1) / 2 ^ h = x / 2 ^ h := by
  have hdvd : ¬ 2 ^ h ∣ x + 1 := mt (two_pow_dvd_succ_iff x h).1 hlow
  have hne : x + 1 ≠ 2 ^ (n + h) := fun he => hdvd (he ▸ pow_dvd_pow 2 (Nat.le_add_left h n))
  exact ⟨Nat.mod_eq_of_lt (lt_of_le_of_ne hx hne), by rw [Nat.succ_div, if_neg hdvd, Nat.add_zero]⟩

/-- The low bits are all ones: they become zeros, and the number above them is incremented. -/
theorem succ_of_low_ones {x h : Nat} (n : Nat) (hlow : x % 2 ^ h + 1 = 2 ^ h) :
    (x + 1) % 2 ^ (n + h) = (x / 2 ^ h + 1) % 2 ^ n * 2 ^ h := by
  have hdvd : 2 ^ h ∣ x + 1 := (two_pow_dvd_succ_iff x h).2 hlow
  rw [pow_add, ← Nat.div_mul_cancel hdvd, Nat.mul_mod_mul_right, Nat.succ_div, if_pos hdvd]

/-! ## Regions of a buffer as numbers (20 R31) -/

theorem bit_eq_testBit {m : Memory} {len i : Nat} (h : Memory.wf m len = true) (hi : i < len * 8) :
    m.bit i = m.val.testBit (len * 8 - 1 - i) := by
  rw [bit_eq_testBit_val h (by omega), Nat.mul_comm]

theorem Memory.val_lt_two_pow {m : Memory} {len : Nat} (h : Memory.wf m len = true) : m.val < 2 ^ (len * 8) := by
  rw [Nat.mul_comm]
  exact val_lt_of_wf h

/-- The bits from index `n` on are the low `TB - n` bits of the number. -/
theorem suffixIs_iff_testBit {m : Memory} {len n : Nat} (h : Memory.wf m len = true) (v : Bool) :
    suffixIs m (len * 8) n v ↔ ∀ i < len * 8 - n, m.val.testBit i = v := by
  constructor
  · intro hs i hi
    have hbit := hs (len * 8 - 1 - i) (by omega) (by omega)
    rwa [bit_eq_testBit h (by omega), show len * 8 - 1 - (len * 8 - 1 - i) = i by omega] at hbit
  · intro hv j hnj hj
    rw [bit_eq_testBit h hj]
    exact hv _ (by omega)

/-- The bits below index `n` are the number above its low `TB - n` bits. -/
theorem sameBelow_iff_div {m m' : Memory} {len n : Nat} (h : Memory.wf m len = true) (h' : Memory.wf m' len = true)
    (hn : n ≤ len * 8) :
    sameBelow m m' n ↔ m.val / 2 ^ (len * 8 - n) = m'.val / 2 ^ (len * 8 - n) := by
  constructor
  · intro hs
    refine Nat.eq_of_testBit_eq fun i => ?_
    rw [Nat.testBit_div_two_pow, Nat.testBit_div_two_pow]
    by_cases hi : i < n
    · have hbit := hs (n - 1 - i) (by omega)
      rwa [bit_eq_testBit h (by omega), bit_eq_testBit h' (by omega),
        show len * 8 - 1 - (n - 1 - i) = i + (len * 8 - n) by omega] at hbit
    · have hpow : 2 ^ (len * 8) ≤ 2 ^ (i + (len * 8 - n)) := Nat.pow_le_pow_right (by decide) (by omega)
      rw [Nat.testBit_lt_two_pow ((Memory.val_lt_two_pow h).trans_le hpow),
        Nat.testBit_lt_two_pow ((Memory.val_lt_two_pow h').trans_le hpow)]
  · intro hdiv j hj
    have hbit := congrArg (Nat.testBit · (n - 1 - j)) hdiv
    simp only [Nat.testBit_div_two_pow] at hbit
    rwa [show n - 1 - j + (len * 8 - n) = len * 8 - 1 - j by omega, ← bit_eq_testBit h (by omega),
      ← bit_eq_testBit h' (by omega)] at hbit

/-- The last bit below index `n` is the parity of the number above its low `TB - n` bits. -/
theorem lastBit_eq_parity {m : Memory} {len n : Nat} (h : Memory.wf m len = true) (h0 : 0 < n) (hn : n ≤ len * 8) :
    m.bit (n - 1) = decide (m.val / 2 ^ (len * 8 - n) % 2 = 1) := by
  rw [bit_eq_testBit h (by omega), Nat.testBit_eq_decide_div_mod_eq,
    show len * 8 - 1 - (n - 1) = len * 8 - n by omega]

/-- A buffer is determined by its number. -/
theorem Memory.ext_val {m m' : Memory} {len : Nat} (h : Memory.wf m len = true) (h' : Memory.wf m' len = true)
    (hv : m.val = m'.val) : m = m' :=
  Memory.ext_bits h h' fun j hj => by rw [bit_eq_testBit h hj, bit_eq_testBit h' hj, hv]

/-! ## What `inc` leaves, in bits (41 R81) -/

theorem exec_inc {s : State} {n : Nat} (hn : n ≤ s.tb) :
    exec (.inc n) s = .next { s with a := incBuffer s.a n, t := incReport s.a n } :=
  length_ok hn

theorem inc_faults {s : State} {n : Nat} (hn : s.tb < n) : faultsWith 3#2 (.inc n) s :=
  length_bad hn

@[simp] theorem incBuffer_zero (m : Memory) : incBuffer m 0 = m.addOne.1 := if_neg (by simp)

@[simp] theorem incReport_zero (m : Memory) : incReport m 0 = m.addOne.2 := if_pos rfl

/-- With a guard, the report says that adding 1 changed the guard bit. -/
theorem incReport_iff_guard (m : Memory) {n : Nat} (h0 : 0 < n) :
    incReport m n = true ↔ m.addOne.1.bit (n - 1) ≠ m.bit (n - 1) := by
  rw [incReport, if_neg h0.ne', guardChanged, bitTest_eq_bit, bitTest_eq_bit, bne_iff_ne]

/-- With a guard, the guard bit is inverted back exactly when the report is 1. -/
theorem incBuffer_of_guard (m : Memory) {n : Nat} (h0 : 0 < n) :
    incBuffer m n = if incReport m n = true then invertBit m.addOne.1 (n - 1) else m.addOne.1 := by
  rw [incBuffer, incReport, if_neg h0.ne']
  simp [h0.ne']

theorem incBuffer_of_not_report {m : Memory} {n : Nat} (h : incReport m n = false) : incBuffer m n = m.addOne.1 := by
  rcases Nat.eq_zero_or_pos n with rfl | h0
  · exact incBuffer_zero m
  · rw [incBuffer_of_guard m h0, h, if_neg Bool.false_ne_true]

/-- The guard bit keeps its value, and every other bit is the one that adding 1 left. -/
theorem bit_incBuffer {m : Memory} {len n : Nat} (h : Memory.wf m len = true) (h0 : 0 < n) (hn : n ≤ len * 8)
    (j : Nat) : (incBuffer m n).bit j = if j = n - 1 then m.bit (n - 1) else m.addOne.1.bit j := by
  have hreport := incReport_iff_guard m h0
  rw [incBuffer_of_guard m h0]
  split
  · next hr =>
    rw [bit_invertBit ((Memory.wf_addOne m len).trans h) (by omega), Bool.eq_not.2 (hreport.1 hr).symm]
  · next hr =>
    split
    · next hj => rw [hj, not_not.1 (mt hreport.2 hr)]
    · rfl

/-- The bits from index `n` on are those that adding 1 left. -/
theorem suffixIs_incBuffer {m : Memory} {len n : Nat} (h : Memory.wf m len = true) (hn : n ≤ len * 8) (v : Bool) :
    suffixIs (incBuffer m n) (len * 8) n v ↔ suffixIs m.addOne.1 (len * 8) n v := by
  rcases Nat.eq_zero_or_pos n with rfl | h0
  · rw [incBuffer_zero]
  · refine forall_congr' fun j => imp_congr_right fun hnj => ?_
    rw [bit_incBuffer h h0 hn, if_neg (by omega)]

/-- The bits before the guard bit are those that adding 1 left. -/
theorem sameBelow_incBuffer {m : Memory} {len n : Nat} (h : Memory.wf m len = true) (h0 : 0 < n) (hn : n ≤ len * 8) :
    sameBelow (incBuffer m n) m.addOne.1 (n - 1) := by
  intro j hj
  rw [bit_incBuffer h h0 hn, if_neg hj.ne]

/-- Adding 1 to the buffer adds 1 to its number, modulo `2 ^ TB`. -/
theorem val_addOne_mod {m : Memory} {len : Nat} (h : Memory.wf m len = true) :
    m.addOne.1.val = (m.val + 1) % 2 ^ (len * 8) := by
  rw [Nat.mul_comm]
  exact (addOne_spec h).1

/-- The carry leaves element 0 exactly when the buffer was all ones. -/
theorem carry_iff {m : Memory} {len : Nat} (h : Memory.wf m len = true) :
    m.addOne.2 = true ↔ m.val = 2 ^ (len * 8) - 1 := by
  rw [Nat.mul_comm]
  exact (addOne_spec h).2

/-- Settles O37: `inc` is a length command of row 6, and its effect is one update of `A` and `T`. -/
theorem incEncodingAndRange : Obligations.IncEncodingAndRange := by
  unfold Obligations.IncEncodingAndRange
  exact ⟨encodesAs_of_fields (op := 6) (fun _ => ⟨rfl, rfl, rfl⟩) rfl, fun s n hn => ⟨_, _, exec_inc hn⟩,
    fun _ _ => inc_faults⟩

/-- Settles O35: the buffer in between is `Memory.addOne`, and the guard bit is the only one that differs from it. -/
theorem incAddsOneAndRestoresTheGuard : Obligations.IncAddsOneAndRestoresTheGuard := by
  unfold Obligations.IncAddsOneAndRestoresTheGuard
  refine ⟨fun s n hs hn => ?_, fun _ _ => inc_faults⟩
  obtain ⟨-, ha, -, -⟩ := (wf_iff s).1 hs
  refine ⟨s.a.addOne.1, _, _, exec_inc hn, (Memory.wf_addOne _ _).trans ha, val_addOne_mod ha,
    (wf_incBuffer _ _ _).trans ha, ?_, fun h0 => ⟨incReport_iff_guard s.a h0, ?_, fun j _ hj => ?_⟩⟩
  · rintro rfl
    exact ⟨incBuffer_zero s.a, by rw [incReport_zero]; exact carry_iff ha⟩
  · rw [bit_incBuffer ha h0 hn, if_pos rfl]
  · rw [bit_incBuffer ha h0 hn, if_neg hj]

/-! ## What `inc` leaves, in numbers (41 R83) -/

/-- The host bits are not all ones: the guarded region stays, and the number is one more. -/
theorem addOne_of_not_ones {m : Memory} {len n : Nat} (h : Memory.wf m len = true) (hn : n ≤ len * 8)
    (hones : ¬ suffixIs m (len * 8) n true) :
    m.addOne.1.val = m.val + 1 ∧ sameBelow m.addOne.1 m n := by
  rw [suffixIs_iff_testBit h, ← mod_two_pow_add_one_eq_iff] at hones
  have hlt := Memory.val_lt_two_pow h
  rw [← Nat.add_sub_cancel' hn] at hlt
  obtain ⟨hval, hdiv⟩ := succ_of_low_not_ones hlt hones
  rw [Nat.add_sub_cancel' hn, ← val_addOne_mod h] at hval
  exact ⟨hval, (sameBelow_iff_div ((Memory.wf_addOne m len).trans h) h hn).2 (by rw [hval, hdiv])⟩

/-- The host bits are all ones: they become zeros, and the guarded region is incremented modulo `2 ^ n`. -/
theorem addOne_of_ones {m : Memory} {len n : Nat} (h : Memory.wf m len = true) (hn : n ≤ len * 8)
    (hones : suffixIs m (len * 8) n true) :
    suffixIs m.addOne.1 (len * 8) n false ∧
      m.addOne.1.val / 2 ^ (len * 8 - n) = (m.val / 2 ^ (len * 8 - n) + 1) % 2 ^ n := by
  rw [suffixIs_iff_testBit h, ← mod_two_pow_add_one_eq_iff] at hones
  have hval := succ_of_low_ones n hones
  rw [Nat.add_sub_cancel' hn, ← val_addOne_mod h] at hval
  rw [suffixIs_iff_testBit ((Memory.wf_addOne m len).trans h), ← mod_two_pow_eq_zero_iff, hval]
  exact ⟨Nat.mul_mod_left _ _, Nat.mul_div_cancel _ (Nat.two_pow_pos _)⟩

/-- The last bit of the guarded region flips when the region is incremented. -/
theorem lastBit_addOne_of_ones {m : Memory} {len n : Nat} (h : Memory.wf m len = true) (h0 : 0 < n) (hn : n ≤ len * 8)
    (hones : suffixIs m (len * 8) n true) : m.addOne.1.bit (n - 1) ≠ m.bit (n - 1) := by
  obtain ⟨-, hdiv⟩ := addOne_of_ones h hn hones
  rw [lastBit_eq_parity ((Memory.wf_addOne m len).trans h) h0 hn, lastBit_eq_parity h h0 hn, hdiv,
    Nat.mod_mod_of_dvd _ (dvd_pow_self 2 h0.ne'), ne_eq, decide_eq_decide]
  omega

/-- The report is 1 exactly when the host bits were all ones. -/
theorem incReport_iff_ones {m : Memory} {len n : Nat} (h : Memory.wf m len = true) (hn : n ≤ len * 8) :
    incReport m n = true ↔ suffixIs m (len * 8) n true := by
  rcases Nat.eq_zero_or_pos n with rfl | h0
  · have hlt := Memory.val_lt_two_pow h
    rw [incReport_zero, carry_iff h, suffixIs_iff_testBit h, ← mod_two_pow_add_one_eq_iff, Nat.sub_zero,
      Nat.mod_eq_of_lt hlt]
    omega
  · rw [incReport_iff_guard m h0]
    constructor
    · intro hflip
      by_contra hones
      obtain ⟨-, hsame⟩ := addOne_of_not_ones h hn hones
      exact hflip (hsame (n - 1) (by omega))
    · exact lastBit_addOne_of_ones h h0 hn

/-- Half of the incremented guarded region: the carry passes the guard bit exactly when that bit is 1. -/
theorem half_succ_mod (p k : Nat) (hp : p < 2 ^ (k + 1)) :
    (p + 1) % 2 ^ (k + 1) / 2 = if p % 2 = 1 then (p / 2 + 1) % 2 ^ k else p / 2 := by
  rw [pow_succ', Nat.mod_mul_right_div_self]
  rw [pow_succ'] at hp
  split
  · congr 1
    omega
  · rw [show (p + 1) / 2 = p / 2 by omega, Nat.mod_eq_of_lt (by omega)]

/-- The bits before the guard bit after an overflow, as the decision D19 has them. -/
theorem incBuffer_above_guard_of_ones {m : Memory} {len n : Nat} (h : Memory.wf m len = true) (h0 : 0 < n)
    (hn : n ≤ len * 8) (hones : suffixIs m (len * 8) n true) :
    (incBuffer m n).val / 2 ^ (len * 8 - (n - 1)) =
      if m.bit (n - 1) = true then (m.val / 2 ^ (len * 8 - (n - 1)) + 1) % 2 ^ (n - 1)
      else m.val / 2 ^ (len * 8 - (n - 1)) := by
  have hwf1 := (Memory.wf_addOne m len).trans h
  have hwf2 := (wf_incBuffer m n len).trans h
  obtain ⟨-, hdiv⟩ := addOne_of_ones h hn hones
  have hregion : m.val / 2 ^ (len * 8 - n) < 2 ^ (n - 1 + 1) := by
    rw [Nat.div_lt_iff_lt_mul (Nat.two_pow_pos _), ← pow_add, show n - 1 + 1 + (len * 8 - n) = len * 8 by omega]
    exact Memory.val_lt_two_pow h
  have habove (x : Nat) : x / 2 ^ (len * 8 - (n - 1)) = x / 2 ^ (len * 8 - n) / 2 := by
    rw [Nat.div_div_eq_div_mul, ← pow_succ, show len * 8 - n + 1 = len * 8 - (n - 1) by omega]
  calc (incBuffer m n).val / 2 ^ (len * 8 - (n - 1))
      = m.addOne.1.val / 2 ^ (len * 8 - (n - 1)) :=
        (sameBelow_iff_div hwf2 hwf1 (by omega)).1 (sameBelow_incBuffer h h0 hn)
    _ = (m.val / 2 ^ (len * 8 - n) + 1) % 2 ^ (n - 1 + 1) / 2 := by rw [habove, hdiv, Nat.sub_add_cancel h0]
    _ = _ := by
      rw [half_succ_mod _ _ hregion, lastBit_eq_parity h h0 hn, habove]
      simp only [decide_eq_true_eq]

/-- Settles O36: the report says that the host bits were all ones, and the two cases of the addition give the rest. -/
theorem incClosedForm : Obligations.IncClosedForm := by
  unfold Obligations.IncClosedForm
  intro s n hs hn
  obtain ⟨-, ha, -, -⟩ := (wf_iff s).1 hs
  have hreport : incReport s.a n = true ↔ suffixIs s.a s.tb n true := incReport_iff_ones ha hn
  have hzeros : incReport s.a n = true → suffixIs (incBuffer s.a n) s.tb n false := fun ht =>
    (suffixIs_incBuffer ha hn false).2 (addOne_of_ones ha hn (hreport.1 ht)).1
  refine ⟨_, _, exec_inc hn, hreport, fun ht => ?_, fun ht h0 => h0 ▸ hzeros ht, fun ht h0 => ⟨hzeros ht, ?_, ?_⟩⟩
  · rw [incBuffer_of_not_report ht]
    exact addOne_of_not_ones ha hn fun hones => Bool.false_ne_true (ht.symm.trans (hreport.2 hones))
  · rw [bit_incBuffer ha h0 hn, if_pos rfl]
  · exact incBuffer_above_guard_of_ones ha h0 hn (hreport.1 ht)

/-! ## A cycle of `inc 0` (41 R85) -/

theorem runMoves_incZeroTimes_succ {s : State} (hf : s.fault = false) (k : Nat) :
    runMoves (incZeroTimes (k + 1)) s =
      runMoves (incZeroTimes k) { s with a := s.a.addOne.1, t := s.a.addOne.2 } := by
  have hexec : exec (.inc 0) s = .next { s with a := s.a.addOne.1, t := s.a.addOne.2 } := by
    rw [exec_inc (Nat.zero_le _), incBuffer_zero, incReport_zero]
  rw [incZeroTimes, List.replicate_succ]
  exact runMoves_encode (by decide) hf hexec _

/-- Counting down to the wrap: one addition nearer to it, or, just past it, a whole cycle away. -/
theorem eq_sub_succ_mod_iff {v k w : Nat} (hv : v < w) (hk : k + 2 ≤ w) :
    k + 1 = w - (v + 1) % w ↔ k + 2 = w - v := by
  rcases Nat.lt_or_eq_of_le (Nat.succ_le_of_lt hv) with hlt | heq
  · rw [Nat.mod_eq_of_lt hlt]
    omega
  · rw [show v + 1 = w from heq, Nat.mod_self]
    omega

/-- The number after `k + 1` commands, and the report of the last of them, within one cycle. -/
theorem run_incZeroTimes (k : Nat) {s : State} (hf : s.fault = false) (ha : Memory.wf s.a s.cfg.len = true)
    (hk : k + 1 ≤ 2 ^ s.tb) :
    ∃ m t, runMoves (incZeroTimes (k + 1)) s = .next { s with a := m, t := t } ∧ Memory.wf m s.cfg.len = true ∧
      m.val = (s.a.val + (k + 1)) % 2 ^ s.tb ∧ (t = true ↔ k + 1 = 2 ^ s.tb - s.a.val) := by
  induction k generalizing s with
  | zero =>
    have hlt : s.a.val < 2 ^ s.tb := Memory.val_lt_two_pow ha
    have hcarry : s.a.addOne.2 = true ↔ s.a.val = 2 ^ s.tb - 1 := carry_iff ha
    exact ⟨_, _, runMoves_incZeroTimes_succ hf 0, (Memory.wf_addOne _ _).trans ha, val_addOne_mod ha,
      hcarry.trans (by omega)⟩
  | succ k ih =>
    have hlt : s.a.val < 2 ^ s.tb := Memory.val_lt_two_pow ha
    have hval : s.a.addOne.1.val = (s.a.val + 1) % 2 ^ s.tb := val_addOne_mod ha
    obtain ⟨m, t, hrun, hm, hmval, ht⟩ := ih (s := { s with a := s.a.addOne.1, t := s.a.addOne.2 }) hf
      ((Memory.wf_addOne _ _).trans ha) (Nat.le_of_succ_le hk)
    refine ⟨m, t, (runMoves_incZeroTimes_succ hf _).trans hrun, hm, hmval.trans ?_, ht.trans ?_⟩
    · change (s.a.addOne.1.val + (k + 1)) % 2 ^ s.tb = _
      rw [hval, Nat.mod_add_mod, Nat.add_assoc, Nat.add_comm 1]
    · change k + 1 = 2 ^ s.tb - s.a.addOne.1.val ↔ _
      rw [hval, eq_sub_succ_mod_iff hlt hk]

/-- Settles O38, by induction on the number of commands: each adds 1, and the one that wraps reports. After `2 ^ TB`
of them the number, and so the buffer, is the first again. -/
theorem incWrapsAroundOncePerCycle : Obligations.IncWrapsAroundOncePerCycle := by
  unfold Obligations.IncWrapsAroundOncePerCycle
  intro s hs hf
  obtain ⟨-, ha, -, -⟩ := (wf_iff s).1 hs
  refine ⟨fun k hk0 hk => ?_, ?_⟩
  · obtain ⟨k, rfl⟩ := Nat.exists_eq_succ_of_ne_zero hk0.ne'
    obtain ⟨m, t, hrun, -, hval, ht⟩ := run_incZeroTimes k hf ha hk
    exact ⟨m, t, hrun, hval, ht⟩
  · have hlt : s.a.val < 2 ^ s.tb := Memory.val_lt_two_pow ha
    obtain ⟨k, hk⟩ := Nat.exists_eq_succ_of_ne_zero (Nat.two_pow_pos s.tb).ne'
    obtain ⟨m, t, hrun, hm, hval, -⟩ := run_incZeroTimes k hf ha hk.ge
    rw [← Nat.succ_eq_add_one, ← hk, Nat.add_mod_right, Nat.mod_eq_of_lt hlt] at hval
    obtain rfl := Memory.ext_val hm ha hval
    exact ⟨t, by rw [hk]; exact hrun⟩

end Sys2Proof.Machine
end

section
/-! `shared_prefix_len` (42 R90 to R94): the command on a state, its result as the greatest length of agreement, and
the leading zero count. -/

namespace Sys2Proof.Machine

open Sys2Proof Sys2Proof.Claims

/-! ## The length commands `shared_prefix_len` and `contains` on a state -/

theorem exec_sharedPrefixLen {s : State} {n : Nat} (hn : n ≤ s.tb) :
    exec (.sharedPrefixLen n) s = .next { s with r := BitVec.ofNat 8 (sharedPrefix s.a s.b s.cfg.len n) } :=
  length_ok hn

theorem exec_contains {s : State} {n : Nat} (hn : n ≤ s.tb) :
    exec (.contains n) s = .next { s with t := agreeBelow s.a s.b n } :=
  length_ok hn

/-- The range check of the length commands (60 R122). -/
theorem lengthCommand_faults {i : Instr} (h : takesLength i = true) {s : State} (hn : s.tb < i.n) :
    faultsWith 3#2 i s := by
  cases i with
  | mask n | get n | set n bit | on n | off n | flip n => cases h
  | inc n | sharedPrefixLen n | zeroesfrom n | onesfrom n | isZeroesfrom n | isOnesfrom n | contains n =>
    exact length_bad hn

/-! ## Agreement of the leading bits -/

theorem sameBelow_refl (m : Memory) (n : Nat) : sameBelow m m n := fun _ _ => rfl

theorem sameBelow_comm (a b : Memory) (n : Nat) : sameBelow a b n ↔ sameBelow b a n :=
  forall₂_congr fun _ _ => eq_comm

theorem sameBelow_mono {a b : Memory} {k n : Nat} (h : sameBelow a b n) (hk : k ≤ n) : sameBelow a b k :=
  fun j hj => h j (hj.trans_le hk)

/-- `sharedPrefix` is the greatest length, up to `n`, on which the buffers agree; so it is determined by the lengths of
agreement alone. -/
theorem le_sharedPrefix_iff (a b : Memory) {len n : Nat} (hn : n ≤ len * 8) (k : Nat) :
    k ≤ sharedPrefix a b len n ↔ k ≤ n ∧ sameBelow a b k := by
  obtain ⟨hle, hsame, hne⟩ := sharedPrefix_spec a b hn
  constructor
  · intro h
    exact ⟨h.trans hle, sameBelow_mono hsame h⟩
  · rintro ⟨hkn, hk⟩
    by_contra hlt
    have hlt : sharedPrefix a b len n < k := Nat.lt_of_not_le hlt
    exact hne (hlt.trans_le hkn) (hk _ hlt)

theorem sharedPrefix_comm (a b : Memory) {len n : Nat} (hn : n ≤ len * 8) :
    sharedPrefix a b len n = sharedPrefix b a len n := by
  refine eq_of_forall_le_iff fun k => ?_
  rw [le_sharedPrefix_iff a b hn, le_sharedPrefix_iff b a hn, sameBelow_comm]

/-- The result for a smaller length is the result for a larger one, clipped (42 R94 (c)). -/
theorem sharedPrefix_eq_min (a b : Memory) {len n n' : Nat} (hle : n ≤ n') (hn' : n' ≤ len * 8) :
    sharedPrefix a b len n = min (sharedPrefix a b len n') n := by
  refine eq_of_forall_le_iff fun k => ?_
  rw [le_min_iff, le_sharedPrefix_iff a b (hle.trans hn'), le_sharedPrefix_iff a b hn']
  constructor
  · rintro ⟨hk, hsame⟩
    exact ⟨⟨hk.trans hle, hsame⟩, hk⟩
  · rintro ⟨⟨-, hsame⟩, hk⟩
    exact ⟨hk, hsame⟩

theorem sharedPrefix_self (m : Memory) {len n : Nat} (hn : n ≤ len * 8) : sharedPrefix m m len n = n :=
  (sharedPrefix_eq_iff m m hn).2 (sameBelow_refl m n)

@[simp] theorem sharedPrefix_zero (a b : Memory) (len : Nat) : sharedPrefix a b len 0 = 0 := if_pos rfl

/-- `contains N` and `shared_prefix_len N` test the same agreement (42 R94 (b)). -/
theorem agreeBelow_iff_sharedPrefix (a b : Memory) {len n : Nat} (hn : n ≤ len * 8) :
    agreeBelow a b n = true ↔ sharedPrefix a b len n = n :=
  (agreeBelow_iff a b n).trans (sharedPrefix_eq_iff a b hn).symm

/-! ## The statements -/

/-- Settles O39: `R` is wide enough for `sharedPrefix`, which is the first difference clipped, and which only depends on
the lengths of agreement, so not on the order of the buffers. -/
theorem sharedPrefixLenIsTheFirstDifference : Obligations.SharedPrefixLenIsTheFirstDifference := by
  unfold Obligations.SharedPrefixLenIsTheFirstDifference
  refine ⟨encodesAs_of_fields (op := 7) (fun _ => ⟨rfl, rfl, rfl⟩) rfl, fun s n hs hn => ?_,
    fun _ n => lengthCommand_faults (i := .sharedPrefixLen n) rfl⟩
  obtain ⟨hcfg, -, -, -⟩ := (wf_iff s).1 hs
  obtain ⟨hle, hsame, hne⟩ := sharedPrefix_spec s.a s.b hn
  refine ⟨_, exec_sharedPrefixLen hn, ?_⟩
  rw [toNat_sharedPrefix hcfg hn]
  refine ⟨hle, hsame, hne, ?_⟩
  rw [sharedPrefix_comm s.a s.b hn]
  exact exec_sharedPrefixLen (s := { s with a := s.b, b := s.a }) hn

/-- Settles O40: the highest 1 of a byte is the one `clz8` names, and for the exclusive or of two elements it is their
first difference. -/
theorem leadingZeroCountFindsTheHighestBit : Obligations.LeadingZeroCountFindsTheHighestBit := by
  unfold Obligations.LeadingZeroCountFindsTheHighestBit
  refine ⟨fun x hx => ?_, fun a b i hne => ?_⟩
  · obtain ⟨h7, hone, hzero⟩ := clz8_spec x hx
    exact ⟨7 - clz8 x, by omega, by omega, hone, hzero⟩
  · have hdiff : diffInElem a b i = some (i * 8 + clz8 (a.elem i ^^^ b.elem i)) :=
      if_neg (mt BitVec.xor_eq_zero_iff.1 hne)
    obtain ⟨-, hlt, hbit, hsame⟩ := diffInElem_some hdiff
    exact ⟨by omega, hbit, hsame⟩

/-- Settles O41: each law is one of `sharedPrefix`, whose value `R` holds in full. -/
theorem sharedPrefixLenLaws : Obligations.SharedPrefixLenLaws := by
  unfold Obligations.SharedPrefixLenLaws
  intro s n1 n2 hs hle hn2
  obtain ⟨hcfg, -, -, -⟩ := (wf_iff s).1 hs
  have hn1 : n1 ≤ s.tb := hle.trans hn2
  obtain ⟨hbound, -, -⟩ := sharedPrefix_spec s.a s.b hn2
  refine ⟨_, _, exec_sharedPrefixLen hn1, exec_sharedPrefixLen hn2, ?_⟩
  rw [toNat_sharedPrefix hcfg hn1, toNat_sharedPrefix hcfg hn2]
  refine ⟨sharedPrefix_eq_min s.a s.b hle hn2, hbound, fun hab => ?_, ?_, _, exec_contains hn2,
    agreeBelow_iff_sharedPrefix s.a s.b hn2⟩
  · rw [← hab, sharedPrefix_self s.a hn2]
  · rintro rfl
    rw [sharedPrefix_zero]

end Sys2Proof.Machine
end

section
/-! The masks of a boundary element (43 R100, 44 R111). -/

namespace Sys2Proof.Machine

open Sys2Proof Sys2Proof.Claims

theorem posOf_lt (n : Nat) : posOf n < 8 := by
  unfold posOf
  omega

theorem toNat_maskOf (n : Nat) : (maskOf n).toNat = 2 ^ posOf n :=
  BitVec.toNat_twoPow_of_lt (posOf_lt n)

/-- The mask the suffix mask is made from: one position above those it covers, so its 1 is not at position 0. -/
theorem toNat_maskOf_pred {n : Nat} (h : n % 8 ≠ 0) : (maskOf (n - 1)).toNat = 2 ^ (posOf n + 1) := by
  rw [toNat_maskOf]
  congr 1
  unfold posOf
  omega

theorem getLsbD_coveredMask {n : Nat} (h : n % 8 ≠ 0) {k : Nat} (hk : k < 8) :
    (coveredMask n).getLsbD k = decide (posOf n < k) := by
  rw [coveredMask, BitVec.getLsbD_not, getLsbD_suffixMask h hk, decide_eq_true hk, Bool.true_and, ← decide_not]
  exact decide_eq_decide.2 not_le

/-- Settles O26: the number the subtraction takes 1 from is a power of two above 1, and the covered mask is the
complement of the suffix mask. -/
theorem boundaryMasksSplitTheElementAtTheIndex : Obligations.BoundaryMasksSplitTheElementAtTheIndex := by
  unfold Obligations.BoundaryMasksSplitTheElementAtTheIndex
  intro n h
  have htwo : 2 ≤ (maskOf (n - 1)).toNat := by
    rw [toNat_maskOf_pred h]
    exact Nat.le_self_pow (Nat.succ_ne_zero _) 2
  refine ⟨htwo, BitVec.toNat_sub_of_le (BitVec.le_def.2 (Nat.one_le_of_lt htwo)), fun k hk =>
    ⟨getLsbD_suffixMask h hk, (getLsbD_coveredMask h hk).trans (decide_eq_decide.2 ?_)⟩⟩
  unfold posOf
  omega

end Sys2Proof.Machine
end

section
/-! The range fills and their predicates (43 R101 to R108), once for both: `v` is the bit that the fill writes and the
predicate looks for. What a fill leaves is told by its bits alone, `v` from the index on and the old ones before it. -/

namespace Sys2Proof.Machine

open Sys2Proof Sys2Proof.Claims

/-! ## The two fills as one, and the two predicates as one -/

/-- The fill that writes the bit `v`. -/
def fillCommand (v : Bool) (n : Nat) : Instr := if v = true then .onesfrom n else .zeroesfrom n

/-- The predicate that looks for the bit `v`. -/
def testCommand (v : Bool) (n : Nat) : Instr := if v = true then .isOnesfrom n else .isZeroesfrom n

/-- The buffer that `fillCommand v n` leaves. -/
def fillFrom (v : Bool) (m : Memory) (n : Nat) : Memory := if v = true then onesFrom m n else zeroFrom m n

/-- The answer of `testCommand v n`. -/
def allFrom (v : Bool) (m : Memory) (n : Nat) : Bool := if v = true then allOnesFrom m n else allZeroFrom m n

theorem exec_fillCommand (v : Bool) {s : State} {n : Nat} (hn : n ≤ s.tb) :
    exec (fillCommand v n) s = .next { s with a := fillFrom v s.a n } := by
  cases v <;> exact length_ok hn

theorem exec_testCommand (v : Bool) {s : State} {n : Nat} (hn : n ≤ s.tb) :
    exec (testCommand v n) s = .next { s with t := allFrom v s.a n } := by
  cases v <;> exact length_ok hn

theorem fillCommand_n (v : Bool) (n : Nat) : (fillCommand v n).n = n := by
  cases v <;> rfl

theorem testCommand_n (v : Bool) (n : Nat) : (testCommand v n).n = n := by
  cases v <;> rfl

theorem wf_fillFrom (v : Bool) (m : Memory) (n len : Nat) : Memory.wf (fillFrom v m n) len = Memory.wf m len := by
  cases v
  · exact wf_zeroFrom m n len
  · exact wf_onesFrom m n len

theorem bit_fillFrom (v : Bool) {m : Memory} {len : Nat} (h : Memory.wf m len = true) (n : Nat) {j : Nat}
    (hj : j < len * 8) : (fillFrom v m n).bit j = if n ≤ j then v else m.bit j := by
  cases v
  · exact bit_zeroFrom h n hj
  · exact bit_onesFrom h n hj

/-- A predicate answers 1 exactly when its fill would change nothing (43 R108 (b)). -/
theorem allFrom_iff (v : Bool) (m : Memory) (n : Nat) : allFrom v m n = true ↔ fillFrom v m n = m := by
  cases v
  · exact allZeroFrom_iff n
  · exact allOnesFrom_iff n

theorem allFrom_iff_suffixIs (v : Bool) {m : Memory} {len : Nat} (h : Memory.wf m len = true) (n : Nat) :
    allFrom v m n = true ↔ suffixIs m (len * 8) n v := by
  cases v
  · exact allZeroFrom_iff_bits h n
  · exact allOnesFrom_iff_bits h n

/-! ## What a fill leaves -/

theorem suffixIs_fillFrom (v : Bool) {m : Memory} {len : Nat} (h : Memory.wf m len = true) (n : Nat) :
    suffixIs (fillFrom v m n) (len * 8) n v := fun j hnj hj => by
  rw [bit_fillFrom v h n hj, if_pos hnj]

theorem sameBelow_fillFrom (v : Bool) {m : Memory} {len n : Nat} (h : Memory.wf m len = true) (hn : n ≤ len * 8) :
    sameBelow (fillFrom v m n) m n := fun j hj => by
  rw [bit_fillFrom v h n (hj.trans_le hn), if_neg hj.not_ge]

/-- The elements before the boundary element hold bits before the index alone. -/
theorem elem_eq_of_sameBelow {m m' : Memory} {n i : Nat} (h : sameBelow m m' n) (hi : i < elemOf n) :
    m.elem i = m'.elem i :=
  elem_eq_iff_bit.2 fun j hj => h j (by unfold elemOf at *; omega)

/-- After a fill its predicate answers 1 (43 R107). -/
theorem allFrom_fillFrom (v : Bool) {m : Memory} {len : Nat} (h : Memory.wf m len = true) (n : Nat) :
    allFrom v (fillFrom v m n) n = true :=
  (allFrom_iff_suffixIs v ((wf_fillFrom v m n len).trans h) n).2 (suffixIs_fillFrom v h n)

/-- A predicate that answers 1 does so from every later index (43 R108 (d)). -/
theorem allFrom_mono {v : Bool} {m : Memory} {len n n' : Nat} (h : Memory.wf m len = true) (hle : n ≤ n')
    (hall : allFrom v m n = true) : allFrom v m n' = true := by
  rw [allFrom_iff_suffixIs v h] at hall ⊢
  exact fun j hj => hall j (hle.trans hj)

/-- From the full length on there are no bits (43 R106). -/
theorem allFrom_full (v : Bool) {m : Memory} {len : Nat} (h : Memory.wf m len = true) :
    allFrom v m (len * 8) = true :=
  (allFrom_iff_suffixIs v h _).2 fun _ hge hlt => absurd hlt hge.not_gt

theorem fillFrom_full (v : Bool) {m : Memory} {len : Nat} (h : Memory.wf m len = true) :
    fillFrom v m (len * 8) = m :=
  (allFrom_iff v m _).1 (allFrom_full v h)

theorem allZeroFrom_zero_iff {m : Memory} {len : Nat} (h : Memory.wf m len = true) :
    allZeroFrom m 0 = true ↔ ∀ i < len, m.elem i = 0x00#8 :=
  (Memory.all_of_wf (elemZeroFrom 0) h).trans (by simp [elemZeroFrom, elemOf])

theorem allOnesFrom_zero_iff {m : Memory} {len : Nat} (h : Memory.wf m len = true) :
    allOnesFrom m 0 = true ↔ ∀ i < len, m.elem i = 0xFF#8 :=
  (Memory.all_of_wf (elemOnesFrom 0) h).trans (by simp [elemOnesFrom, elemOf])

/-- `contains N` looks at no bit that a fill from `N` writes (43 R108 (e)). -/
theorem agreeBelow_fillFrom (v : Bool) {m : Memory} {len n : Nat} (h : Memory.wf m len = true) (hn : n ≤ len * 8)
    (b : Memory) : agreeBelow (fillFrom v m n) b n = agreeBelow m b n := by
  rw [Bool.eq_iff_iff, agreeBelow_iff, agreeBelow_iff]
  exact forall₂_congr fun j hj => by rw [sameBelow_fillFrom v h hn j hj]

/-- `inc N` reports what `is_onesfrom N` answers (43 R105). -/
theorem incReport_eq_allFrom {m : Memory} {len n : Nat} (h : Memory.wf m len = true) (hn : n ≤ len * 8) :
    incReport m n = allFrom true m n := by
  rw [Bool.eq_iff_iff, incReport_iff_ones h hn, allFrom_iff_suffixIs true h]

/-! ## The fills as numbers (43 R108 (c)) -/

/-- A fill replaces the low `TB - n` bits of the number. -/
theorem val_fillFrom (v : Bool) {m : Memory} {len n : Nat} (h : Memory.wf m len = true) (hn : n ≤ len * 8) :
    (fillFrom v m n).val =
      m.val - m.val % 2 ^ (len * 8 - n) + (fillFrom v m n).val % 2 ^ (len * 8 - n) := by
  have hdiv := (sameBelow_iff_div ((wf_fillFrom v m n len).trans h) h hn).1 (sameBelow_fillFrom v h hn)
  have hold := Nat.div_add_mod m.val (2 ^ (len * 8 - n))
  have hnew := Nat.div_add_mod (fillFrom v m n).val (2 ^ (len * 8 - n))
  rw [hdiv] at hnew
  omega

theorem testBit_val_fillFrom (v : Bool) {m : Memory} {len : Nat} (h : Memory.wf m len = true) (n : Nat) :
    ∀ i < len * 8 - n, (fillFrom v m n).val.testBit i = v :=
  (suffixIs_iff_testBit ((wf_fillFrom v m n len).trans h) v).1 (suffixIs_fillFrom v h n)

theorem val_zeroFrom {m : Memory} {len n : Nat} (h : Memory.wf m len = true) (hn : n ≤ len * 8) :
    (zeroFrom m n).val = m.val - m.val % 2 ^ (len * 8 - n) := by
  have hlow := (mod_two_pow_eq_zero_iff _ _).2 (testBit_val_fillFrom false h n)
  have hval := val_fillFrom false h hn
  rwa [hlow] at hval

theorem val_onesFrom {m : Memory} {len n : Nat} (h : Memory.wf m len = true) (hn : n ≤ len * 8) :
    (onesFrom m n).val = m.val - m.val % 2 ^ (len * 8 - n) + 2 ^ (len * 8 - n) - 1 := by
  have hlow := (mod_two_pow_add_one_eq_iff _ _).2 (testBit_val_fillFrom true h n)
  have hval : (onesFrom m n).val = _ := val_fillFrom true h hn
  omega

/-! ## The commands on a state -/

/-- A fill changes nothing at all exactly when its predicate answers 1. -/
theorem allFrom_iff_exec_fillCommand (v : Bool) {s : State} {n : Nat} (hn : n ≤ s.tb) :
    allFrom v s.a n = true ↔ exec (fillCommand v n) s = .next s := by
  rw [allFrom_iff, exec_fillCommand v hn]
  constructor
  · intro h
    rw [h]
  · intro h
    exact congrArg State.a (Host.Outcome.next.inj h)

/-- The whole of a fill on a well-formed state (43 R102, R103). -/
theorem fillCommand_spec (v : Bool) {s : State} {n : Nat} (hs : s.wf = true) (hn : n ≤ s.tb) :
    ∃ m, exec (fillCommand v n) s = .next { s with a := m } ∧ Memory.wf m s.cfg.len = true ∧
      suffixIs m s.tb n v ∧ sameBelow m s.a n ∧ (∀ i, i < elemOf n → m.elem i = s.a.elem i) ∧
      (n = s.tb → m = s.a) ∧ exec (fillCommand v n) { s with a := m } = .next { s with a := m } := by
  obtain ⟨-, ha, -, -⟩ := (wf_iff s).1 hs
  have hbelow := sameBelow_fillFrom v ha hn
  refine ⟨_, exec_fillCommand v hn, (wf_fillFrom v s.a n _).trans ha, suffixIs_fillFrom v ha n, hbelow,
    fun i hi => elem_eq_of_sameBelow hbelow hi, fun htb => htb ▸ fillFrom_full v ha, ?_⟩
  exact (allFrom_iff_exec_fillCommand v (s := { s with a := fillFrom v s.a n }) hn).1 (allFrom_fillFrom v ha n)

/-- The whole of a predicate on a well-formed state (43 R104, R105). -/
theorem testCommand_spec (v : Bool) {s : State} {n : Nat} (hs : s.wf = true) (hn : n ≤ s.tb) :
    exec (testCommand v n) s = .next { s with t := allFrom v s.a n } ∧
      (allFrom v s.a n = true ↔ suffixIs s.a s.tb n v) ∧
      (allFrom v s.a n = true ↔ exec (fillCommand v n) s = .next s) := by
  obtain ⟨-, ha, -, -⟩ := (wf_iff s).1 hs
  exact ⟨exec_testCommand v hn, allFrom_iff_suffixIs v ha n, allFrom_iff_exec_fillCommand v hn⟩

/-- A fill and then its predicate, as issued words (43 R107, R108 (a)). -/
theorem run_fill_test (v : Bool) {s : State} {n : Nat} (hs : s.wf = true) (hf : s.fault = false) (hn : n ≤ s.tb) :
    runMoves [.issue (encode (fillCommand v n)), .issue (encode (testCommand v n))] s =
      .next { s with a := fillFrom v s.a n, t := true } := by
  obtain ⟨hcfg, ha, -, -⟩ := (wf_iff s).1 hs
  have hn256 : n < 256 := (hn.trans (tb_le_of_wf hcfg)).trans_lt (by decide)
  have hfill : (fillCommand v n).wellFormed = true := decide_eq_true ((fillCommand_n v n).trans_lt hn256)
  have htest : (testCommand v n).wellFormed = true := decide_eq_true ((testCommand_n v n).trans_lt hn256)
  rw [runMoves_encode hfill hf (exec_fillCommand v hn),
    runMoves_encode (s := { s with a := fillFrom v s.a n }) htest hf (exec_testCommand v hn), allFrom_fillFrom v ha n]
  rfl

/-! ## The statements -/

/-- Settles O42: `zeroesfrom` is the fill with 0. -/
theorem zeroesfromClearsTheSuffix : Obligations.ZeroesfromClearsTheSuffix := by
  unfold Obligations.ZeroesfromClearsTheSuffix
  exact ⟨encodesAs_of_fields (op := 8) (fun _ => ⟨rfl, rfl, rfl⟩) rfl, fun _ _ => fillCommand_spec false,
    fun _ n => lengthCommand_faults (i := .zeroesfrom n) rfl⟩

/-- Settles O43: `onesfrom` is the fill with 1. -/
theorem onesfromSetsTheSuffix : Obligations.OnesfromSetsTheSuffix := by
  unfold Obligations.OnesfromSetsTheSuffix
  exact ⟨encodesAs_of_fields (op := 9) (fun _ => ⟨rfl, rfl, rfl⟩) rfl, fun _ _ => fillCommand_spec true,
    fun _ n => lengthCommand_faults (i := .onesfrom n) rfl⟩

/-- Settles O44: `is_zeroesfrom` is the predicate for 0. -/
theorem isZeroesfromTestsTheSuffix : Obligations.IsZeroesfromTestsTheSuffix := by
  unfold Obligations.IsZeroesfromTestsTheSuffix
  exact ⟨encodesAs_of_fields (op := 10) (fun _ => ⟨rfl, rfl, rfl⟩) rfl,
    fun _ _ hs hn => ⟨_, testCommand_spec false hs hn⟩, fun _ n => lengthCommand_faults (i := .isZeroesfrom n) rfl⟩

/-- Settles O45: `is_onesfrom` is the predicate for 1, and the report of `inc` is the same test. -/
theorem isOnesfromTestsTheSuffix : Obligations.IsOnesfromTestsTheSuffix := by
  unfold Obligations.IsOnesfromTestsTheSuffix
  refine ⟨encodesAs_of_fields (op := 11) (fun _ => ⟨rfl, rfl, rfl⟩) rfl, fun s n hs hn => ?_,
    fun _ n => lengthCommand_faults (i := .isOnesfrom n) rfl⟩
  obtain ⟨-, ha, -, -⟩ := (wf_iff s).1 hs
  obtain ⟨hexec, hsuffix, hfill⟩ := testCommand_spec true hs hn
  refine ⟨_, hexec, hsuffix, hfill, incBuffer s.a n, ?_⟩
  rw [exec_inc hn, incReport_eq_allFrom ha hn]

/-- Settles O46: from index `TB` on there is no bit to write or to test. -/
theorem atFullLengthFillsDoNothing : Obligations.AtFullLengthFillsDoNothing := by
  unfold Obligations.AtFullLengthFillsDoNothing
  intro s hs
  obtain ⟨-, ha, -, -⟩ := (wf_iff s).1 hs
  have hall (v : Bool) : allFrom v s.a s.tb = true := allFrom_full v ha
  have hfill (v : Bool) : exec (fillCommand v s.tb) s = .next s :=
    (allFrom_iff_exec_fillCommand v le_rfl).1 (hall v)
  have htest (v : Bool) : exec (testCommand v s.tb) s = .next { s with t := true } :=
    hall v ▸ exec_testCommand v le_rfl
  exact ⟨hfill false, hfill true, htest false, htest true⟩

/-- Settles O47: the suffix is zero after the fill, and at `N = 0` every element is tested whole. -/
theorem zeroesfromThenIsZeroesfrom : Obligations.ZeroesfromThenIsZeroesfrom := by
  unfold Obligations.ZeroesfromThenIsZeroesfrom
  intro s n hs hf hn
  obtain ⟨-, ha, -, -⟩ := (wf_iff s).1 hs
  exact ⟨⟨_, run_fill_test false hs hf hn⟩, _, exec_testCommand false (Nat.zero_le _), allZeroFrom_zero_iff ha⟩

/-- Settles O48: each relation is one of `fillFrom` and `allFrom`, for 0 and for 1. -/
theorem rangeFillRelations : Obligations.RangeFillRelations := by
  unfold Obligations.RangeFillRelations
  intro s n hs hf hn
  obtain ⟨-, ha, -, -⟩ := (wf_iff s).1 hs
  have hcontains (v : Bool) : exec (.contains n) { s with a := fillFrom v s.a n } =
      .next { s with a := fillFrom v s.a n, t := agreeBelow s.a s.b n } := by
    rw [exec_contains (s := { s with a := fillFrom v s.a n }) hn, agreeBelow_fillFrom v ha hn]
  refine ⟨⟨_, run_fill_test true hs hf hn⟩, ⟨_, exec_testCommand true (Nat.zero_le _), allOnesFrom_zero_iff ha⟩,
    _, _, _, _, exec_fillCommand false hn, exec_fillCommand true hn, exec_testCommand false hn,
    exec_testCommand true hn, allFrom_iff false s.a n, allFrom_iff true s.a n, val_zeroFrom ha hn, val_onesFrom ha hn, fun n2 hle hn2 => ?_,
    _, exec_contains hn, hcontains false, hcontains true⟩
  exact ⟨_, _, exec_testCommand false hn2, exec_testCommand true hn2, allFrom_mono ha hle, allFrom_mono ha hle⟩

end Sys2Proof.Machine
end

section
/-! `contains` (44 R110 to R113): the laws of its answer `agreeBelow`, each a law of agreement on the leading bits. -/

namespace Sys2Proof.Machine

open Sys2Proof Sys2Proof.Claims

/-! ## The laws of `agreeBelow` -/

theorem agreeBelow_iff_sameBelow (a b : Memory) (n : Nat) : agreeBelow a b n = true ↔ sameBelow a b n :=
  agreeBelow_iff a b n

theorem agreeBelow_comm (a b : Memory) (n : Nat) : agreeBelow a b n = agreeBelow b a n := by
  rw [Bool.eq_iff_iff, agreeBelow_iff_sameBelow, agreeBelow_iff_sameBelow, sameBelow_comm]

theorem agreeBelow_self (m : Memory) (n : Nat) : agreeBelow m m n = true :=
  (agreeBelow_iff_sameBelow m m n).2 (sameBelow_refl m n)

/-- An answer 1 holds for every smaller length (44 R112). -/
theorem agreeBelow_mono {a b : Memory} {k n : Nat} (h : agreeBelow a b n = true) (hk : k ≤ n) :
    agreeBelow a b k = true := by
  rw [agreeBelow_iff_sameBelow] at h ⊢
  exact sameBelow_mono h hk

/-- At the full length agreement is the equality of the buffers (44 R110). -/
theorem agreeBelow_full_iff {a b : Memory} {len : Nat} (ha : Memory.wf a len = true) (hb : Memory.wf b len = true) :
    agreeBelow a b (len * 8) = true ↔ a = b := by
  constructor
  · intro h
    exact Memory.ext_bits ha hb ((agreeBelow_iff_sameBelow a b _).1 h)
  · rintro rfl
    exact agreeBelow_self a _

/-! ## The statements -/

/-- Settles O49: `contains` answers `agreeBelow`, which does not depend on the order of the buffers. -/
theorem containsComparesTheLeadingBits : Obligations.ContainsComparesTheLeadingBits := by
  unfold Obligations.ContainsComparesTheLeadingBits
  refine ⟨encodesAs_of_fields (op := 12) (fun _ => ⟨rfl, rfl, rfl⟩) rfl, fun s n hs hn => ?_,
    fun _ n => lengthCommand_faults (i := .contains n) rfl⟩
  obtain ⟨-, ha, hb, -⟩ := (wf_iff s).1 hs
  refine ⟨_, exec_contains hn, agreeBelow_iff_sameBelow s.a s.b n, fun htb => ?_, ?_⟩
  · rw [htb]
    exact agreeBelow_full_iff ha hb
  · rw [agreeBelow_comm s.a s.b n]
    exact exec_contains (s := { s with a := s.b, b := s.a }) hn

/-- Settles O50: each law is one of `agreeBelow`; as numbers the leading bits are the buffers above the low `TB - n`
bits. -/
theorem containmentLaws : Obligations.ContainmentLaws := by
  unfold Obligations.ContainmentLaws
  intro s n n2 hs hle hn
  obtain ⟨hcfg, ha, hb, -⟩ := (wf_iff s).1 hs
  refine ⟨_, _, _, exec_contains hn, exec_contains (hle.trans hn), exec_sharedPrefixLen hn, fun hab => ?_,
    fun h => agreeBelow_mono h hle, ?_, ?_⟩
  · rw [← hab, agreeBelow_self]
  · rw [toNat_sharedPrefix hcfg hn]
    exact agreeBelow_iff_sharedPrefix s.a s.b hn
  · exact (agreeBelow_iff_sameBelow s.a s.b n).trans (sameBelow_iff_div ha hb hn)

end Sys2Proof.Machine
end

section
/-! Exceptions (60 R120 to R127): which command raises which cause, what a step that raises a fault changes, and what the
port of a faulted unit still does. -/

namespace Sys2Proof.Machine

open Sys2Proof Sys2Proof.Claims

/-! ## The cause a command raises (60 R121, R122, R125) -/

theorem Cause.code_injective : Function.Injective Cause.code := by
  intro c d
  cases c <;> cases d <;> decide

/-- The three values a fault leaves in `FCAUSE` (60 R125). -/
theorem Cause.code_eq_one_two_or_three (c : Cause) : c.code = 1#2 ∨ c.code = 2#2 ∨ c.code = 3#2 := by
  cases c <;> decide

theorem rangeFault_eq_indexRange_iff (i : Instr) (tb : Nat) :
    rangeFault i tb = some .indexRange ↔ takesIndex i = true ∧ tb ≤ i.n := by
  cases i with
  | mask n => simp [rangeFault, takesIndex]
  | get n | set n bit | on n | off n | flip n => simp [rangeFault, indexFault, takesIndex, Instr.n]
  | inc n | sharedPrefixLen n | zeroesfrom n | onesfrom n | isZeroesfrom n | isOnesfrom n | contains n =>
    simp [rangeFault, lengthFault, takesIndex]

theorem rangeFault_eq_lengthRange_iff (i : Instr) (tb : Nat) :
    rangeFault i tb = some .lengthRange ↔ takesLength i = true ∧ tb < i.n := by
  cases i with
  | mask n => simp [rangeFault, takesLength]
  | get n | set n bit | on n | off n | flip n => simp [rangeFault, indexFault, takesLength]
  | inc n | sharedPrefixLen n | zeroesfrom n | onesfrom n | isZeroesfrom n | isOnesfrom n | contains n =>
    simp [rangeFault, lengthFault, takesLength, Instr.n]

/-- A command leaves an unfaulted unit faulted only by its fault entry. -/
theorem exec_raises {i : Instr} {s s' : State} (hf : s.fault = false) (he : exec i s = .next s')
    (hf' : s'.fault = true) : ∃ c, rangeFault i s.tb = some c ∧ s' = raiseFault c s := by
  cases (exec_eq_afterExec i s).symm.trans he
  obtain ⟨c, hc⟩ := Option.isSome_iff_exists.1 ((afterExec_fault i hf).symm.trans hf')
  exact ⟨c, hc, afterExec_of_fault hc⟩

theorem exec_raises_iff (i : Instr) {s : State} (hf : s.fault = false) (c : Cause) :
    (∃ s', exec i s = .next s' ∧ s'.fault = true ∧ s'.fcause = c.code) ↔ rangeFault i s.tb = some c := by
  constructor
  · rintro ⟨s', he, hf', hcode⟩
    obtain ⟨d, hd, rfl⟩ := exec_raises hf he hf'
    rwa [← Cause.code_injective hcode]
  · intro hc
    exact ⟨raiseFault c s, (exec_eq_afterExec i s).trans (congrArg _ (afterExec_of_fault hc)), rfl, rfl⟩

/-! ## Where a fault comes from, and what it leaves (60 R120, R124) -/

/-- Issuing the word `w` to an unfaulted unit of `tb` bits raises the cause `c`: the word is illegal, or the command it
decodes to fails its range check. -/
def wordRaises (w : CommandWord) (tb : Nat) (c : Cause) : Prop :=
  (c = .illegalCommand ∧ ∃ e, decode w = .error e) ∨ ∃ i, decode w = .ok i ∧ rangeFault i tb = some c

theorem issue_raises {w : CommandWord} {s s' : State} (hf : s.fault = false) (hi : issue w s = .next s')
    (hf' : s'.fault = true) : ∃ c, wordRaises w s.tb c ∧ s' = raiseFault c s := by
  cases hd : decode w with
  | error e =>
    cases (issue_of_decode_error hf hd).symm.trans hi
    exact ⟨.illegalCommand, .inl ⟨rfl, e, hd⟩, rfl⟩
  | ok i =>
    obtain ⟨c, hc, hs⟩ := exec_raises hf ((issue_of_decode_ok hf hd).symm.trans hi) hf'
    exact ⟨c, .inr ⟨i, hd, hc⟩, hs⟩

/-- Of the moves of the port only an issue raises a fault. -/
theorem makeMove_raises {m : Move} {s s' : State} (hf : s.fault = false) (hm : makeMove m s = .next s')
    (hf' : s'.fault = true) : ∃ w c, m = .issue w ∧ wordRaises w s.tb c ∧ s' = raiseFault c s := by
  have hne : s'.fault ≠ s.fault := by rw [hf, hf']; decide
  cases m with
  | hostWrite sp i v => obtain ⟨-, ⟨-, rfl⟩ | ⟨-, rfl⟩⟩ := hostWrite_next hm <;> exact absurd rfl hne
  | hostRead sp i =>
    obtain ⟨-, rfl⟩ := hostRead_next hm
    exact absurd rfl hne
  | hostReadR | hostReadT | hostReadFault =>
    cases hm
    exact absurd rfl hne
  | issue w =>
    obtain ⟨c, hc, hs⟩ := issue_raises hf hm hf'
    exact ⟨w, c, rfl, hc, hs⟩
  | reset =>
    cases hm
    cases hf'

/-- A step that raises a fault is the fault entry of the issued word, and nothing more (60 R124). -/
theorem step_raises {s s' : State} (hs : step s = .next s') (hf : s.fault = false) (hf' : s'.fault = true) :
    ∃ w rest c, s.pending = .issue w :: rest ∧ wordRaises w s.tb c ∧ s' = raiseFault c (s.withPending rest) := by
  cases hp : s.pending with
  | nil =>
    cases (step_nil hp).symm.trans hs
    exact absurd (hf.symm.trans hf') (by decide)
  | cons m rest =>
    rw [step_cons hp] at hs
    obtain ⟨w, c, rfl, hc, hs'⟩ := makeMove_raises (s := s.withPending rest) hf hs hf'
    exact ⟨w, rest, c, rfl, hc, hs'⟩

/-- A step that leaves the code of a range fault is the issue of a command whose range check fails with that cause. -/
theorem step_raises_range {c : Cause} (hne : c ≠ .illegalCommand) {s s' : State} (hs : step s = .next s')
    (hf : s.fault = false) (hf' : s'.fault = true) (hcode : s'.fcause = c.code) :
    ∃ w rest i, s.pending = .issue w :: rest ∧ decode w = .ok i ∧ rangeFault i s.tb = some c := by
  obtain ⟨w, rest, d, hp, hd, rfl⟩ := step_raises hs hf hf'
  obtain rfl : d = c := Cause.code_injective hcode
  rcases hd with ⟨h, -⟩ | ⟨i, hi, hr⟩
  · exact absurd h hne
  · exact ⟨w, rest, i, hp, hi, hr⟩

/-! ## The statements about faults -/

/-- Settles O15: the code 2 is that of `indexRange`, which only the range check of an index command answers. -/
theorem indexRangeRaisedExactlyByIndexCommands : Obligations.IndexRangeRaisedExactlyByIndexCommands := by
  unfold Obligations.IndexRangeRaisedExactlyByIndexCommands
  refine ⟨fun i s hf => (exec_raises_iff i hf .indexRange).trans (rangeFault_eq_indexRange_iff i s.tb),
    fun s s' hs hf hf' hcode => ?_⟩
  obtain ⟨w, rest, i, hp, hd, hr⟩ := step_raises_range (c := .indexRange) (by decide) hs hf hf' hcode
  exact ⟨w, rest, i, hp, hd, (rangeFault_eq_indexRange_iff i s.tb).1 hr⟩

/-- Settles O16: the code 3 is that of `lengthRange`, which only the range check of a length command answers. -/
theorem lengthRangeRaisedExactlyByLengthCommands : Obligations.LengthRangeRaisedExactlyByLengthCommands := by
  unfold Obligations.LengthRangeRaisedExactlyByLengthCommands
  refine ⟨fun i s hf => (exec_raises_iff i hf .lengthRange).trans (rangeFault_eq_lengthRange_iff i s.tb),
    fun s s' hs hf hf' hcode => ?_⟩
  obtain ⟨w, rest, i, hp, hd, hr⟩ := step_raises_range (c := .lengthRange) (by decide) hs hf hf' hcode
  exact ⟨w, rest, i, hp, hd, (rangeFault_eq_lengthRange_iff i s.tb).1 hr⟩

/-- Settles O17: the step is the fault entry of the issued word, which writes `FAULT` and `FCAUSE` alone. -/
theorem faultsArePreciseAndOnlyFromCommands : Obligations.FaultsArePreciseAndOnlyFromCommands := by
  unfold Obligations.FaultsArePreciseAndOnlyFromCommands
  intro s s' hs hf hf'
  obtain ⟨w, rest, c, hp, -, hs'⟩ := step_raises hs hf hf'
  exact ⟨w, rest, c.code, hp, c.code_eq_one_two_or_three, hs'⟩

/-! ## The port of a faulted unit (60 R127) -/

/-- The state with `FAULT` at 0 and everything else as it is. -/
def State.withoutFault (s : State) : State := { s with fault := false }

theorem State.withoutFault_writeElem (s : State) (sp : Space) (i : Nat) (v : Byte) :
    s.withoutFault.writeElem sp i v = (s.writeElem sp i v).withoutFault := by
  cases sp <;> rfl

theorem State.withoutFault_buffer (s : State) (sp : Space) : s.withoutFault.buffer sp = s.buffer sp := by
  cases sp <;> rfl

/-- A read or write of the port that has a move does the same whether `FAULT` is 0 or 1. -/
theorem step_portAccess_withoutFault {s : State} {m : Move} {rest : List Move} (hp : s.pending = m :: rest)
    (hm : (∃ sp i v, i < s.cfg.len ∧ m = .hostWrite sp i v) ∨ (∃ sp i, i < s.cfg.len ∧ m = .hostRead sp i) ∨
      m = .hostReadR ∨ m = .hostReadT) :
    ∃ u, step s = .next u ∧ step s.withoutFault = .next u.withoutFault := by
  rcases hm with ⟨sp, i, v, hi, rfl⟩ | ⟨sp, i, hi, rfl⟩ | rfl | rfl
  · refine ⟨_, step_hostWrite hp hi, ?_⟩
    rw [← State.withoutFault_writeElem]
    exact step_hostWrite (s := s.withoutFault) hp hi
  · refine ⟨_, step_hostRead hp hi, ?_⟩
    rw [← State.withoutFault_buffer]
    exact step_hostRead (s := s.withoutFault) hp hi
  · exact ⟨_, step_cons hp, step_cons (s := s.withoutFault) hp⟩
  · exact ⟨_, step_cons hp, step_cons (s := s.withoutFault) hp⟩

/-- Settles O9: the unit ignores the word, a port access does not look at `FAULT`, and `HostReadFault` returns it. -/
theorem faultedUnitIgnoresEveryCommand : Obligations.FaultedUnitIgnoresEveryCommand := by
  unfold Obligations.FaultedUnitIgnoresEveryCommand
  intro s rest hf
  refine ⟨by rw [Successful, hf, Bool.not_true], fun w hp => ?_, fun m hm hp => step_portAccess_withoutFault hp hm,
    fun hp => ?_⟩
  · exact (step_cons hp).trans (issue_of_faulted (s := s.withPending rest) hf w)
  · rw [← hf]
    exact step_cons hp

end Sys2Proof.Machine
end

section
/-! Reset and runs (70 R140, R146, R148): no move of the port looks at the host's list of moves still to be made, so
a run of steps is a run of moves. -/

namespace Sys2Proof.Machine

open Sys2Proof

/-! ## Completion and reset (70 R140, R146) -/

/-- Settles O10: the step makes the issue, which is ignored, faulted or executed, each with a next state. -/
theorem everyIssuedCommandCompletes : Obligations.EveryIssuedCommandCompletes := by
  unfold Obligations.EveryIssuedCommandCompletes
  intro s w rest hp
  rw [step_cons hp]
  exact issue_next w (s.withPending rest)

/-- Settles O19: the step is `resetUnit`, which lists every element of both buffers anew. -/
theorem resetClearsTheFault : Obligations.ResetClearsTheFault := by
  unfold Obligations.ResetClearsTheFault
  intro s rest hp
  exact ⟨resetUnit (s.withPending rest), step_cons hp, rfl, rfl, rfl, Memory.wf_ofFn _ _, Memory.wf_ofFn _ _, rfl, rfl⟩

/-! ## The unit does not look at the host's list of moves (10 R16) -/

theorem afterExec_withPending (i : Instr) (s : State) (l : List Move) :
    afterExec i (s.withPending l) = (afterExec i s).withPending l := by
  have htb : (s.withPending l).tb = s.tb := rfl
  cases hc : rangeFault i s.tb with
  | some c =>
    rw [afterExec_of_fault hc, afterExec_of_fault (htb ▸ hc)]
    rfl
  | none =>
    rw [afterExec_of_inRange hc, afterExec_of_inRange (htb ▸ hc)]
    rfl

theorem exec_withPending {i : Instr} {s s' : State} (h : exec i s = .next s') (l : List Move) :
    exec i (s.withPending l) = .next (s'.withPending l) := by
  cases (exec_eq_afterExec i s).symm.trans h
  rw [exec_eq_afterExec, afterExec_withPending]

theorem issue_withPending {w : CommandWord} {s s' : State} (h : issue w s = .next s') (l : List Move) :
    issue w (s.withPending l) = .next (s'.withPending l) := by
  rcases issue_cases w s with ⟨hf, hx⟩ | ⟨hf, ⟨e, hd⟩, hx⟩ | ⟨hf, i, hd, hx⟩ <;> rw [hx] at h
  · cases h
    exact issue_of_faulted (s := s.withPending l) hf w
  · cases h
    exact issue_of_decode_error (s := s.withPending l) hf hd
  · exact (issue_of_decode_ok (s := s.withPending l) hf hd).trans (exec_withPending h l)

theorem makeMove_withPending {m : Move} {s s' : State} (h : makeMove m s = .next s') (l : List Move) :
    makeMove m (s.withPending l) = .next (s'.withPending l) := by
  cases m with
  | hostWrite sp i v =>
    obtain ⟨hi, ⟨rfl, rfl⟩ | ⟨rfl, rfl⟩⟩ := hostWrite_next h <;> exact hostWrite_of_lt (s := s.withPending l) hi _ v
  | hostRead sp i =>
    obtain ⟨hi, rfl⟩ := hostRead_next h
    cases sp <;> exact hostRead_of_lt (s := s.withPending l) hi _
  | issue w => exact issue_withPending h l
  | hostReadR | hostReadT | hostReadFault | reset =>
    cases h
    rfl

/-! ## A run of steps is a run of moves (70 R148, 20 R40) -/

/-- A run that has a next state makes its first move and runs on from there. -/
theorem runMoves_cons_next {m : Move} {rest : List Move} {s s' : State} (h : runMoves (m :: rest) s = .next s') :
    ∃ u, makeMove m s = .next u ∧ runMoves rest u = .next s' := by
  rcases makeMove_next_or_refused m s with ⟨u, hu⟩ | ⟨sp, i, -, -, hr⟩
  · exact ⟨u, hu, (runMoves_cons hu).symm.trans h⟩
  · rw [runMoves, hr] at h
    cases h

theorem step_withPending_cons {m : Move} {s u : State} (h : makeMove m s = .next u) (rest : List Move) :
    step (s.withPending (m :: rest)) = .next (u.withPending rest) :=
  (step_cons (State.withPending_pending s (m :: rest))).trans (makeMove_withPending h rest)

theorem core_run_succ {s u : State} (h : step s = .next u) (k : Nat) :
    Sys2Proof.core.run (k + 1) s = Sys2Proof.core.run k u :=
  host_run_succ Sys2Proof.core k s u h

/-- Once the host's list is exhausted every further step is idle (log entry 5). -/
theorem core_run_idle {s : State} (h : s.pending = []) (k : Nat) : Sys2Proof.core.run k s = .next s := by
  induction k with
  | zero => rfl
  | succ k ih => exact (core_run_succ (step_nil h) k).trans ih

theorem core_run_withPending (extra : Nat) {moves : List Move} {s s' : State} (h : runMoves moves s = .next s') :
    Sys2Proof.core.run (moves.length + extra) (s.withPending moves) = .next (s'.withPending []) := by
  induction moves generalizing s with
  | nil =>
    cases h
    exact core_run_idle (State.withPending_pending _ []) _
  | cons m rest ih =>
    obtain ⟨u, hu, hrest⟩ := runMoves_cons_next h
    rw [List.length_cons, Nat.add_right_comm]
    exact (core_run_succ (step_withPending_cons hu rest) _).trans (ih hrest)

/-- Settles O51, by induction on the list: a step makes its first move and leaves the rest pending, and the steps
after the last move are idle. -/
theorem runIsTheMovesInOrder : Obligations.RunIsTheMovesInOrder := by
  unfold Obligations.RunIsTheMovesInOrder
  intro moves s s' extra h
  exact core_run_withPending extra h

end Sys2Proof.Machine
end
